-- ==== Sys2Proof/Word.lean ====
section
/-! DEFINITION. The word type of the LS-8 (10_state.md R21, 20_memory.md R41): every register, memory cell and
instruction byte is one unsigned byte, and the register file has eight registers. -/

namespace Sys2Proof

/-- One unsigned 8-bit value (00_scope.md R6): a register's contents, a memory cell, an instruction byte. -/
abbrev Byte := BitVec 8

/-- The index of a general register, 0 to 7 (10_state.md R21). -/
abbrev Reg := Fin 8

end Sys2Proof
end

