-- ==== Sys2Proof/Config.lean ====
section
/-! DEFINITION. What is fixed for one core and is not architectural state: the parameters of 00_scope.md R4 and the list of
mnemonics that the parameter `OPCODE_MAP` gives a byte to. Their values for this hardware are `Config.reference` and
`OpcodeMap.default` in Sys2Proof/Decode.lean. -/

namespace Sys2Proof

/-- The 34 mnemonics of the dispatch table (30_encoding.md R64), in the table's order. -/
inductive Mnemonic where
  | hlt | nop | ldi | ld | st | push | pop | prn | pra
  | add | sub | mul | div | mod | and | or | xor | shl | shr | cmp | inc | dec | not
  | call | ret | jmp | jeq | jne | jgt | jlt | jle | jge
  | int | iret
  deriving DecidableEq, Repr

/-- The parameter `OPCODE_MAP` (00_scope.md R4): the opcode byte of each mnemonic. -/
structure OpcodeMap where
  hlt : Byte
  nop : Byte
  ldi : Byte
  ld : Byte
  st : Byte
  push : Byte
  pop : Byte
  prn : Byte
  pra : Byte
  add : Byte
  sub : Byte
  mul : Byte
  div : Byte
  mod : Byte
  and : Byte
  or : Byte
  xor : Byte
  shl : Byte
  shr : Byte
  cmp : Byte
  inc : Byte
  dec : Byte
  not : Byte
  call : Byte
  ret : Byte
  jmp : Byte
  jeq : Byte
  jne : Byte
  jgt : Byte
  jlt : Byte
  jle : Byte
  jge : Byte
  int : Byte
  iret : Byte
  deriving DecidableEq, Repr

/-- The parameters of 00_scope.md R4 that are not fixed by the rules. -/
structure Config where
  /-- `MEM_SIZE`: the number of memory cells, 1 to 256 (20_memory.md R41). -/
  memSize : Nat
  /-- `OPCODE_MAP`: the dispatch table's keys (30_encoding.md R64). -/
  opcodeMap : OpcodeMap
  /-- `OPERAND_PREFETCH`: whether every cycle also reads `pc+1` and `pc+2` before decode (30_encoding.md R73). -/
  operandPrefetch : Bool
  deriving DecidableEq, Repr

end Sys2Proof
end

