-- ==== Sys2Proof/Syntax.lean ====
section
/-! DEFINITION. The instructions of the LS-8, one constructor for each row of the opcode table (30_encoding.md R64).
Operands are the operand bytes as they stand in memory: a register operand byte may be any of 0..255, and one of 8 or more
is an instruction that raises `InvalidRegister` (30_encoding.md R62), so the syntax can say it. -/

namespace Sys2Proof

/-- One instruction with its operand bytes, first operand first (30_encoding.md R60, R61). -/
inductive Instr where
  /-- HLT (40_halt_nop.md R90). -/
  | hlt
  /-- NOP (40_halt_nop.md R91). -/
  | nop
  /-- LDI Rd, imm8 (41_load_store.md R100). -/
  | ldi (rd imm8 : Byte)
  /-- LD Ra, Rb (41_load_store.md R101). -/
  | ld (ra rb : Byte)
  /-- ST Ra, Rb (41_load_store.md R102). -/
  | st (ra rb : Byte)
  /-- PUSH Ra (42_stack.md R110). -/
  | push (ra : Byte)
  /-- POP Rd (42_stack.md R111). -/
  | pop (rd : Byte)
  /-- PRN Ra (43_output.md R121). -/
  | prn (ra : Byte)
  /-- PRA Ra (43_output.md R122). -/
  | pra (ra : Byte)
  /-- ADD Ra, Rb (44_alu.md R131). -/
  | add (ra rb : Byte)
  /-- SUB Ra, Rb (44_alu.md R132). -/
  | sub (ra rb : Byte)
  /-- MUL Ra, Rb (44_alu.md R133). -/
  | mul (ra rb : Byte)
  /-- DIV Ra, Rb (44_alu.md R134). -/
  | div (ra rb : Byte)
  /-- MOD Ra, Rb (44_alu.md R135). -/
  | mod (ra rb : Byte)
  /-- AND Ra, Rb (44_alu.md R136). -/
  | and (ra rb : Byte)
  /-- OR Ra, Rb (44_alu.md R137). -/
  | or (ra rb : Byte)
  /-- XOR Ra, Rb (44_alu.md R138). -/
  | xor (ra rb : Byte)
  /-- SHL Ra, Rb (44_alu.md R139). -/
  | shl (ra rb : Byte)
  /-- SHR Ra, Rb (44_alu.md R140). -/
  | shr (ra rb : Byte)
  /-- CMP Ra, Rb (44_alu.md R141). -/
  | cmp (ra rb : Byte)
  /-- INC Ra (44_alu.md R142). -/
  | inc (ra : Byte)
  /-- DEC Ra (44_alu.md R143). -/
  | dec (ra : Byte)
  /-- NOT Ra (44_alu.md R144). -/
  | not (ra : Byte)
  /-- CALL Ra (45_control_transfer.md R162). -/
  | call (ra : Byte)
  /-- RET (45_control_transfer.md R163). -/
  | ret
  /-- JMP Ra (45_control_transfer.md R166). -/
  | jmp (ra : Byte)
  /-- JEQ Ra (45_control_transfer.md R167). -/
  | jeq (ra : Byte)
  /-- JNE Ra (45_control_transfer.md R168). -/
  | jne (ra : Byte)
  /-- JGT Ra (45_control_transfer.md R169). -/
  | jgt (ra : Byte)
  /-- JLT Ra (45_control_transfer.md R170). -/
  | jlt (ra : Byte)
  /-- JLE Ra (45_control_transfer.md R171). -/
  | jle (ra : Byte)
  /-- JGE Ra (45_control_transfer.md R172). -/
  | jge (ra : Byte)
  /-- INT b (46_int_iret.md R180): the byte is no register operand and is ignored. -/
  | int (b : Byte)
  /-- IRET (46_int_iret.md R181). -/
  | iret
  deriving DecidableEq, Repr

end Sys2Proof
end

