-- ==== Sys2Proof/WellFormed.lean ====
section
/-! DEFINITION. Which instructions and which parameters are well formed: every register operand byte names a register
(30_encoding.md R62, R74), and the memory size is one the model accepts (00_scope.md R4). -/

namespace Sys2Proof

/-- The register operand bytes of an instruction, in the order they are checked (30_encoding.md R74): LDI's `imm8` and
INT's byte are not register operands. -/
def Instr.regOperands : Instr → List Byte
  | .hlt => []
  | .nop => []
  | .ldi rd _ => [rd]
  | .ld ra rb => [ra, rb]
  | .st ra rb => [ra, rb]
  | .push ra => [ra]
  | .pop rd => [rd]
  | .prn ra => [ra]
  | .pra ra => [ra]
  | .add ra rb => [ra, rb]
  | .sub ra rb => [ra, rb]
  | .mul ra rb => [ra, rb]
  | .div ra rb => [ra, rb]
  | .mod ra rb => [ra, rb]
  | .and ra rb => [ra, rb]
  | .or ra rb => [ra, rb]
  | .xor ra rb => [ra, rb]
  | .shl ra rb => [ra, rb]
  | .shr ra rb => [ra, rb]
  | .cmp ra rb => [ra, rb]
  | .inc ra => [ra]
  | .dec ra => [ra]
  | .not ra => [ra]
  | .call ra => [ra]
  | .ret => []
  | .jmp ra => [ra]
  | .jeq ra => [ra]
  | .jne ra => [ra]
  | .jgt ra => [ra]
  | .jlt ra => [ra]
  | .jle ra => [ra]
  | .jge ra => [ra]
  | .int _ => []
  | .iret => []

/-- A register operand byte names a register iff it is at most 7 (30_encoding.md R62). -/
def namesRegister (r : Byte) : Bool := decide (r.toNat ≤ 7)

/-- The register operand byte `InvalidRegister` reports, if one is invalid: operand byte 1 before operand byte 2
(30_encoding.md R74). -/
def Instr.firstInvalid (i : Instr) : Option Byte := i.regOperands.find? fun r => !namesRegister r

/-- Every register operand byte of the instruction names a register. -/
def Instr.wf (i : Instr) : Bool := i.regOperands.all namesRegister

/-- The memory size is one the model accepts: `1 <= MEM_SIZE <= 256` (00_scope.md R4). -/
def Config.sizeOk (c : Config) : Bool := decide (1 ≤ c.memSize ∧ c.memSize ≤ 256)

end Sys2Proof
end

