-- ==== Sys2Proof/Decode.lean ====
section
/-! DEFINITION. Decoding and encoding (30_encoding.md): the formats, the dispatch table with its default opcode map, a
decoder that is total on any bytes and rejects by name, and the encoder written from the same table. -/

namespace Sys2Proof

/-! ### Formats and widths -/

/-- The five instruction formats (30_encoding.md R61). -/
inductive Format where
  | z | r | u | rr | ri
  deriving DecidableEq, Repr

/-- How many operand bytes follow the opcode byte (30_encoding.md R61). -/
def Format.operandCount : Format → Nat
  | .z => 0
  | .r => 1
  | .u => 1
  | .rr => 2
  | .ri => 2

/-- The format column of the dispatch table (30_encoding.md R64). -/
def Mnemonic.format : Mnemonic → Format
  | .hlt => .z
  | .nop => .z
  | .ldi => .ri
  | .ld => .rr
  | .st => .rr
  | .push => .r
  | .pop => .r
  | .prn => .r
  | .pra => .r
  | .add => .rr
  | .sub => .rr
  | .mul => .rr
  | .div => .rr
  | .mod => .rr
  | .and => .rr
  | .or => .rr
  | .xor => .rr
  | .shl => .rr
  | .shr => .rr
  | .cmp => .rr
  | .inc => .r
  | .dec => .r
  | .not => .r
  | .call => .r
  | .ret => .z
  | .jmp => .r
  | .jeq => .r
  | .jne => .r
  | .jgt => .r
  | .jlt => .r
  | .jle => .r
  | .jge => .r
  | .int => .u
  | .iret => .z

/-- An instruction's width in bytes, fixed by its mnemonic (30_encoding.md R65). -/
def Mnemonic.width (mn : Mnemonic) : Nat := 1 + mn.format.operandCount

/-! ### The opcode map -/

/-- The default of the parameter `OPCODE_MAP`: the opcode column of 30_encoding.md R64. PRESUMED (log entry 1): the spec
marks these byte values as general knowledge. -/
def OpcodeMap.default : OpcodeMap where
  hlt := 0x01
  nop := 0x00
  ldi := 0x82
  ld := 0x83
  st := 0x84
  push := 0x45
  pop := 0x46
  prn := 0x47
  pra := 0x48
  add := 0xA0
  sub := 0xA1
  mul := 0xA2
  div := 0xA3
  mod := 0xA4
  and := 0xA8
  or := 0xAA
  xor := 0xAB
  shl := 0xAC
  shr := 0xAD
  cmp := 0xA7
  inc := 0x65
  dec := 0x66
  not := 0x69
  call := 0x50
  ret := 0x11
  jmp := 0x54
  jeq := 0x55
  jne := 0x56
  jgt := 0x57
  jlt := 0x58
  jle := 0x59
  jge := 0x5A
  int := 0x52
  iret := 0x13

/-- This hardware's parameters (00_scope.md R4): 256 cells, the default opcode map, no operand prefetch. -/
def Config.reference : Config where
  memSize := 256
  opcodeMap := .default
  operandPrefetch := false

/-- The opcode byte a map gives a mnemonic. -/
def OpcodeMap.byteOf (m : OpcodeMap) : Mnemonic → Byte
  | .hlt => m.hlt
  | .nop => m.nop
  | .ldi => m.ldi
  | .ld => m.ld
  | .st => m.st
  | .push => m.push
  | .pop => m.pop
  | .prn => m.prn
  | .pra => m.pra
  | .add => m.add
  | .sub => m.sub
  | .mul => m.mul
  | .div => m.div
  | .mod => m.mod
  | .and => m.and
  | .or => m.or
  | .xor => m.xor
  | .shl => m.shl
  | .shr => m.shr
  | .cmp => m.cmp
  | .inc => m.inc
  | .dec => m.dec
  | .not => m.not
  | .call => m.call
  | .ret => m.ret
  | .jmp => m.jmp
  | .jeq => m.jeq
  | .jne => m.jne
  | .jgt => m.jgt
  | .jlt => m.jlt
  | .jle => m.jle
  | .jge => m.jge
  | .int => m.int
  | .iret => m.iret

/-- The 34 mnemonics, in the table's order (30_encoding.md R64). -/
def Mnemonic.all : List Mnemonic :=
  [.hlt, .nop, .ldi, .ld, .st, .push, .pop, .prn, .pra] ++
  [.add, .sub, .mul, .div, .mod, .and, .or, .xor, .shl, .shr, .cmp, .inc, .dec, .not] ++
  [.call, .ret, .jmp, .jeq, .jne, .jgt, .jlt, .jle, .jge, .int, .iret]

/-- The dispatch table's lookup: the whole opcode byte is matched (30_encoding.md R64, R72). -/
def OpcodeMap.lookup (m : OpcodeMap) (op : Byte) : Option Mnemonic :=
  Mnemonic.all.find? fun mn => m.byteOf mn == op

/-- No two mnemonics share an opcode byte: the dispatch table is a mapping keyed by opcode (30_encoding.md R64). -/
def OpcodeMap.distinct (m : OpcodeMap) : Bool := decide (Mnemonic.all.map m.byteOf).Nodup

/-- The parameters are ones the model accepts (00_scope.md R4). -/
def Config.wf (c : Config) : Bool := c.sizeOk && c.opcodeMap.distinct

/-! ### Instructions and their bytes -/

/-- The instruction a mnemonic makes of its operand bytes, the first operand in operand byte 1 (30_encoding.md R60, R61).
A byte the format does not have is not looked at. -/
def Mnemonic.instr (b1 b2 : Byte) : Mnemonic → Instr
  | .hlt => .hlt
  | .nop => .nop
  | .ldi => .ldi b1 b2
  | .ld => .ld b1 b2
  | .st => .st b1 b2
  | .push => .push b1
  | .pop => .pop b1
  | .prn => .prn b1
  | .pra => .pra b1
  | .add => .add b1 b2
  | .sub => .sub b1 b2
  | .mul => .mul b1 b2
  | .div => .div b1 b2
  | .mod => .mod b1 b2
  | .and => .and b1 b2
  | .or => .or b1 b2
  | .xor => .xor b1 b2
  | .shl => .shl b1 b2
  | .shr => .shr b1 b2
  | .cmp => .cmp b1 b2
  | .inc => .inc b1
  | .dec => .dec b1
  | .not => .not b1
  | .call => .call b1
  | .ret => .ret
  | .jmp => .jmp b1
  | .jeq => .jeq b1
  | .jne => .jne b1
  | .jgt => .jgt b1
  | .jlt => .jlt b1
  | .jle => .jle b1
  | .jge => .jge b1
  | .int => .int b1
  | .iret => .iret

/-- The mnemonic of an instruction. -/
def Instr.mnemonic : Instr → Mnemonic
  | .hlt => .hlt
  | .nop => .nop
  | .ldi _ _ => .ldi
  | .ld _ _ => .ld
  | .st _ _ => .st
  | .push _ => .push
  | .pop _ => .pop
  | .prn _ => .prn
  | .pra _ => .pra
  | .add _ _ => .add
  | .sub _ _ => .sub
  | .mul _ _ => .mul
  | .div _ _ => .div
  | .mod _ _ => .mod
  | .and _ _ => .and
  | .or _ _ => .or
  | .xor _ _ => .xor
  | .shl _ _ => .shl
  | .shr _ _ => .shr
  | .cmp _ _ => .cmp
  | .inc _ => .inc
  | .dec _ => .dec
  | .not _ => .not
  | .call _ => .call
  | .ret => .ret
  | .jmp _ => .jmp
  | .jeq _ => .jeq
  | .jne _ => .jne
  | .jgt _ => .jgt
  | .jlt _ => .jlt
  | .jle _ => .jle
  | .jge _ => .jge
  | .int _ => .int
  | .iret => .iret

/-- An instruction's width in bytes (30_encoding.md R65). -/
def Instr.width (i : Instr) : Nat := i.mnemonic.width

/-- The operand bytes of an instruction in memory order (30_encoding.md R60). -/
def Instr.operandBytes : Instr → List Byte
  | .hlt => []
  | .nop => []
  | .ldi b1 b2 => [b1, b2]
  | .ld b1 b2 => [b1, b2]
  | .st b1 b2 => [b1, b2]
  | .push b1 => [b1]
  | .pop b1 => [b1]
  | .prn b1 => [b1]
  | .pra b1 => [b1]
  | .add b1 b2 => [b1, b2]
  | .sub b1 b2 => [b1, b2]
  | .mul b1 b2 => [b1, b2]
  | .div b1 b2 => [b1, b2]
  | .mod b1 b2 => [b1, b2]
  | .and b1 b2 => [b1, b2]
  | .or b1 b2 => [b1, b2]
  | .xor b1 b2 => [b1, b2]
  | .shl b1 b2 => [b1, b2]
  | .shr b1 b2 => [b1, b2]
  | .cmp b1 b2 => [b1, b2]
  | .inc b1 => [b1]
  | .dec b1 => [b1]
  | .not b1 => [b1]
  | .call b1 => [b1]
  | .ret => []
  | .jmp b1 => [b1]
  | .jeq b1 => [b1]
  | .jne b1 => [b1]
  | .jgt b1 => [b1]
  | .jlt b1 => [b1]
  | .jle b1 => [b1]
  | .jge b1 => [b1]
  | .int b1 => [b1]
  | .iret => []

/-- The operand byte that names a register: `Rn` is the byte `n` (30_encoding.md R78). -/
def Reg.byte (r : Reg) : Byte := BitVec.ofNat 8 r.val

/-- The bytes of an instruction: its opcode byte, then its operand bytes (30_encoding.md R78). -/
def encode (m : OpcodeMap) (i : Instr) : List Byte := m.byteOf i.mnemonic :: i.operandBytes

/-! ### Decoding -/

/-- Why a byte sequence is no instruction. -/
inductive DecodeError where
  /-- There is no opcode byte. -/
  | noOpcode
  /-- The opcode byte is not in the dispatch table (30_encoding.md R67). -/
  | unimplementedOpcode (op : Byte)
  /-- Operand byte `k` (1 or 2) of a known opcode is missing (30_encoding.md R73). -/
  | missingOperand (k : Nat)
  deriving DecidableEq, Repr

/-- Take the operand bytes of a known mnemonic (30_encoding.md R73); the rest of the bytes is returned. -/
def decodeOperands (mn : Mnemonic) (rest : List Byte) : Except DecodeError (Instr × List Byte) :=
  match mn.format.operandCount, rest with
  | 0, rest => .ok (mn.instr 0 0, rest)
  | 1, b1 :: rest => .ok (mn.instr b1 0, rest)
  | 1, [] => .error (.missingOperand 1)
  | _, b1 :: b2 :: rest => .ok (mn.instr b1 b2, rest)
  | _, [_] => .error (.missingOperand 2)
  | _, [] => .error (.missingOperand 1)

/-- Decode the instruction at the head of a byte sequence (30_encoding.md R72): total, and it rejects by name. -/
def decode (m : OpcodeMap) : List Byte → Except DecodeError (Instr × List Byte)
  | [] => .error .noOpcode
  | op :: rest =>
    match m.lookup op with
    | none => .error (.unimplementedOpcode op)
    | some mn => decodeOperands mn rest

/-! ### Words numbered as the opcode table numbers them -/

/-- The three bytes of a table word, the first at the lowest address: the bits from `nbits` up are 0, and the longest
instruction has three bytes (30_encoding.md R60, R61). -/
def tableBytes (nbits w : Nat) : List Byte :=
  let bits := w % 2 ^ nbits
  [BitVec.ofNat 8 bits, BitVec.ofNat 8 (bits / 2 ^ 8), BitVec.ofNat 8 (bits / 2 ^ 16)]

/-- The instruction the decoder reads from a word of spec/opcode_table.json, with the default opcode map. -/
def decodeTableWord (nbits w : Nat) : Option Instr :=
  match decode .default (tableBytes nbits w) with
  | .ok (i, _) => some i
  | .error _ => none

end Sys2Proof
end

