-- ==== Sys2Proof/Machine/State.lean ====
section
/-! DEFINITION. The architectural state (10_state.md R20) as plain data, the reasons a step can stop, and the state
after reset (10_state.md R36, 70_reset_and_hazards.md R240). -/

namespace Sys2Proof.Machine

/-! ### Memory -/

/-- Memory as the list of the cells that differ from what an unlisted cell holds, addresses strictly rising
(20_memory.md R41). Which addresses exist is the parameter `MEM_SIZE`. -/
abbrev Memory := List Host.Cell

/-- What a cell that is not listed holds: the reset value 0x00 (10_state.md R36). -/
def Memory.resetByte : Byte := 0

/-- Every address in the list is above `lo` and rising, and no listed byte is the reset byte. -/
def Memory.wfFrom (lo : Nat) : Memory → Bool
  | [] => true
  | (a, v) :: rest => decide (lo ≤ a) && v != resetByte && wfFrom (a + 1) rest

/-- The canonical form: equal memories are equal lists. -/
def Memory.wf (m : Memory) : Bool := wfFrom 0 m

/-! ### Output, faults and status -/

/-- One output event of the console port (43_output.md R120). -/
inductive OutputEvent where
  /-- Emitted by PRN: the value, for the host to render in decimal. -/
  | dec (v : Byte)
  /-- Emitted by PRA: the value, for the host to render as a character code. -/
  | char (v : Byte)
  deriving DecidableEq, Repr

/-- The four kinds of runtime fault (60_exceptions.md R200). -/
inductive FaultKind where
  | outOfBounds | divisionByZero | unimplementedOpcode | invalidRegister
  deriving DecidableEq, Repr

/-- The spec's `Fault` record (60_exceptions.md R200), held in the state once an instruction has faulted. -/
structure FaultRecord where
  kind : FaultKind
  /-- What the kind names: an address, an opcode byte, a register byte, or the pc of the DIV or MOD. -/
  value : Nat
  /-- The spec's field `at`: the pc of the faulting instruction. -/
  atPc : Nat
  deriving DecidableEq, Repr

/-- The status derived from the state (10_state.md R31). -/
inductive Status where
  | running
  | halted
  | faulted (r : FaultRecord)
  deriving DecidableEq, Repr

/-! ### The state -/

/-- The architectural state (10_state.md R20), and the parameters of the core it belongs to (log entry 2). -/
structure State where
  /-- The parameters of 00_scope.md R4: configuration, which no step changes (10_state.md R35). -/
  cfg : Config
  /-- The memory cells (20_memory.md R41). -/
  mem : Memory
  /-- The general registers `x[0]` .. `x[7]`; `x[7]` is SP (10_state.md R21, R22). -/
  regs : Vector Byte 8
  /-- The flags register (10_state.md R27): bit 0 E, bit 1 G, bit 2 L. -/
  fl : Byte
  /-- The program counter, a natural number that never wraps (10_state.md R26). -/
  pc : Nat
  /-- True from construction until HLT (10_state.md R30). -/
  running : Bool
  /-- The fault record, if an instruction has faulted (10_state.md R31). -/
  fault : Option FaultRecord
  /-- The output events, oldest first (10_state.md R32). -/
  out : List OutputEvent
  deriving DecidableEq, Repr

/-! ### Why a step can stop -/

/-- Why there is no next state. The four runtime faults of 60_exceptions.md R200 are NOT here: an instruction that raises
one has a next state, which holds the fault record (log entry 3). -/
inductive Fault where
  /-- Raised by `step` alone, on a core whose status is Halted: such a core has no step (30_encoding.md R70). Safe: the
  spec gives this core no further step. -/
  | halted
  /-- Raised by `step` alone, on a core whose status is Faulted, with the fault it holds: such a core has no step
  (60_exceptions.md R205). Safe: the spec gives this core no further step. -/
  | faulted (r : FaultRecord)
  deriving DecidableEq, Repr

/-- Why an instruction has no meaning in the model. -/
inductive Refusal where
  /-- Raised by an arm of `exec` for an instruction without a meaning; no arm raises it. Safe: nothing is claimed of such
  an instruction. -/
  | notModelled (mnemonic : String)
  deriving DecidableEq, Repr

/-! ### Reset -/

/-- `construct()` for a core with the given parameters (70_reset_and_hazards.md R240): every piece of state at the reset
value of 10_state.md R36. -/
def State.construct (c : Config) : State where
  cfg := c
  mem := []
  regs := #v[0, 0, 0, 0, 0, 0, 0, 0xF4]
  fl := 0
  pc := 0
  running := true
  fault := none
  out := []

/-- The state after reset of this hardware (00_scope.md R4: 256 cells, default opcode map, no operand prefetch). -/
def State.reset : State := State.construct Config.reference

end Sys2Proof.Machine
end

