-- ==== Sys2Proof/Machine/Ops.lean ====
section
/-! DEFINITION. The named operations over memory, registers and control state that the meanings are written with, and the
one operation that takes a fault. The spec has no trap entry and no return from a trap (60_exceptions.md R208, R210):
taking a fault is `State.raise`, and nothing returns from it. -/

namespace Sys2Proof.Machine

/-! ### Cells -/

/-- The byte a cell holds. -/
def Memory.peek : Memory → Nat → Byte
  | [], _ => resetByte
  | (b, w) :: rest, a => if a = b then w else peek rest a

/-- Put a listed or unlisted byte in front of cells that all lie above it. -/
def Memory.putFront (a : Nat) (v : Byte) (rest : Memory) : Memory :=
  if v = resetByte then rest else (a, v) :: rest

/-- Set one cell, keeping the canonical form. -/
def Memory.poke : Memory → Nat → Byte → Memory
  | [], a, v => putFront a v []
  | (b, w) :: rest, a, v =>
    if a < b then putFront a v ((b, w) :: rest)
    else if a = b then putFront a v rest
    else (b, w) :: poke rest a v

/-- Set consecutive cells from address `a` on, in ascending order. -/
def Memory.pokeAll : Memory → Nat → List Byte → Memory
  | m, _, [] => m
  | m, a, v :: vs => pokeAll (poke m a v) (a + 1) vs

/-! ### Raising a fault -/

/-- What `raise K(v)` names (60_exceptions.md R200). -/
structure Trap where
  kind : FaultKind
  value : Nat
  deriving DecidableEq, Repr

/-- A computation of an instruction, which may raise instead of answering (00_scope.md R8). -/
abbrev Attempt (α : Type) := Except Trap α

/-- TAKING A FAULT: only the fault record is set, with the pc of the faulting instruction (30_encoding.md R75,
60_exceptions.md R200, R205, R208). -/
def State.raise (s : State) (t : Trap) : State :=
  { s with fault := some { kind := t.kind, value := t.value, atPc := s.pc } }

/-- The end of an instruction: all its writes are committed together, or it raised and none is (30_encoding.md R75). -/
def State.commit (s : State) : Attempt State → Host.Outcome State Fault Refusal
  | .ok t => .next t
  | .error e => .next (s.raise e)

/-- The core's status (10_state.md R31). -/
def State.status (s : State) : Status :=
  match s.fault with
  | some r => .faulted r
  | none => if s.running then .running else .halted

/-! ### The memory bus -/

/-- `MemRead(addr, 1)` (20_memory.md R42). -/
def State.memRead (s : State) (addr : Nat) : Attempt Byte :=
  if addr < s.cfg.memSize then .ok (Memory.peek s.mem addr) else .error ⟨.outOfBounds, addr⟩

/-- One cell set (20_memory.md R43: a write changes exactly one cell). -/
def State.setCell (s : State) (addr : Nat) (v : Byte) : State := { s with mem := Memory.poke s.mem addr v }

/-- `MemWrite(addr, 1, v)` (20_memory.md R43). -/
def State.memWrite (s : State) (addr : Nat) (v : Byte) : Attempt State :=
  if addr < s.cfg.memSize then .ok (s.setCell addr v) else .error ⟨.outOfBounds, addr⟩

/-! ### Registers -/

/-- A value modulo 256 (10_state.md R23). -/
def narrow (n : Nat) : Byte := BitVec.ofNat 8 n

/-- Read `x[r]` (00_scope.md R8). -/
def State.reg (s : State) (r : Reg) : Byte := s.regs[r.val]

/-- Write `x[r]` (10_state.md R23: the value is already a byte, that is, taken modulo 256). -/
def State.setReg (s : State) (r : Reg) (v : Byte) : State := { s with regs := s.regs.set r.val v }

/-- The stack pointer is register 7 (10_state.md R22). -/
def spReg : Reg := 7

/-- Read SP. -/
def State.sp (s : State) : Byte := s.reg spReg

/-- SP moved down by one, modulo 256 (20_memory.md R50). -/
def State.decSp (s : State) : State := s.setReg spReg (s.sp - 1)

/-- SP moved up by one, modulo 256 (20_memory.md R50). -/
def State.incSp (s : State) : State := s.setReg spReg (s.sp + 1)

/-! ### The stack discipline (20_memory.md R50) -/

/-- Decrement SP, then write at SP the byte that `v` gives in the state SP has already moved in (00_scope.md R8: each
statement reads the state left by the one before). -/
def State.push (s : State) (v : State → Byte) : Attempt State :=
  s.decSp.memWrite s.decSp.sp.toNat (v s.decSp)

/-- Read the byte at SP; SP is moved afterwards, by `State.incSp`. -/
def State.top (s : State) : Attempt Byte := s.memRead s.sp.toNat

/-! ### Program counter, running flag, console -/

/-- Fall through: the pc advances by the instruction's width and never wraps (10_state.md R25, R26). -/
def State.advance (s : State) (width : Nat) : State := { s with pc := s.pc + width }

/-- Set the pc to a target byte (45_control_transfer.md R160). -/
def State.jump (s : State) (target : Byte) : State := { s with pc := target.toNat }

/-- The halt primitive (10_state.md R30). -/
def State.halt (s : State) : State := { s with running := false }

/-- `Emit(e)`: append one event to the output (43_output.md R120). -/
def State.emit (s : State) (e : OutputEvent) : State := { s with out := s.out ++ [e] }

end Sys2Proof.Machine
end

