-- ==== Sys2Proof/Machine/Flags.lean ====
section
/-! DEFINITION. The flags register FL (10_state.md R27): its three bits, what CMP writes into it (44_alu.md R141), and the
condition of each conditional jump (45_control_transfer.md R161). No other instruction writes or reads FL (R28). -/

namespace Sys2Proof.Machine

/-- Bit 0, E: the last CMP found its operands equal (10_state.md R27). -/
def flagE (fl : Byte) : Bool := fl.getLsbD 0

/-- Bit 1, G: the last CMP found its first operand greater, unsigned (10_state.md R27). -/
def flagG (fl : Byte) : Bool := fl.getLsbD 1

/-- Bit 2, L: the last CMP found its first operand less, unsigned (10_state.md R27). -/
def flagL (fl : Byte) : Bool := fl.getLsbD 2

/-- The whole value CMP writes into FL (44_alu.md R141). -/
def compareFlags (a b : Byte) : Byte :=
  if a.toNat = b.toNat then 0b00000001
  else if a.toNat > b.toNat then 0b00000010
  else 0b00000100

/-- FL overwritten as a whole (10_state.md R28). -/
def State.setFl (s : State) (v : Byte) : State := { s with fl := v }

/-- JEQ's condition: E (45_control_transfer.md R161). -/
def condEq (fl : Byte) : Bool := flagE fl

/-- JNE's condition: not E. -/
def condNe (fl : Byte) : Bool := !flagE fl

/-- JGT's condition: G. -/
def condGt (fl : Byte) : Bool := flagG fl

/-- JLT's condition: L. -/
def condLt (fl : Byte) : Bool := flagL fl

/-- JLE's condition: L or E. -/
def condLe (fl : Byte) : Bool := flagL fl || flagE fl

/-- JGE's condition: G or E. -/
def condGe (fl : Byte) : Bool := flagG fl || flagE fl

end Sys2Proof.Machine
end

