-- ==== Sys2Proof/Machine/Operands.lean ====
section
/-! DEFINITION. The operand forms (30_encoding.md R61, R62, R63): a register index byte, checked; an immediate byte, taken
as it is; and the one addressing mode, register indirect. -/

namespace Sys2Proof.Machine

/-- A register index operand (30_encoding.md R62): a byte of 8 or more raises `InvalidRegister`. -/
def regOperand (b : Byte) : Attempt Reg :=
  if h : b.toNat < 8 then .ok ⟨b.toNat, h⟩ else .error ⟨.invalidRegister, b.toNat⟩

/-- LDI's immediate: the whole byte, unsigned, with no extension (30_encoding.md R63). -/
def immOperand (b : Byte) : Byte := b

/-- The effective address of a register-indirect access: the register's value, used as it is (41_load_store.md). -/
def State.address (s : State) (r : Reg) : Nat := (s.reg r).toNat

/-- The address a push writes to: SP after its decrement (20_memory.md R50). -/
def State.pushAddress (s : State) : Nat := s.decSp.sp.toNat

/-- The return address of a CALL: the address of the next instruction (45_control_transfer.md R162). -/
def State.returnAddress (s : State) : Nat := s.pc + 2

end Sys2Proof.Machine
end

