-- ==== Sys2Proof/Machine/Alu.lean ====
section
/-! DEFINITION. The ALU's operations on bytes and the meanings of its 14 instructions (44_alu.md). Every operation is
computed on natural numbers and narrowed at the end (44_alu.md R130: all arithmetic wraps modulo 256). -/

namespace Sys2Proof.Machine

/-! ### Operations -/

/-- `(a + b) mod 256` (44_alu.md R131). -/
def aluAdd (a b : Byte) : Byte := narrow (a.toNat + b.toNat)

/-- `(a - b) mod 256`, the non-negative remainder (44_alu.md R132, 00_scope.md R7). -/
def aluSub (a b : Byte) : Byte := BitVec.ofInt 8 ((a.toNat : Int) - (b.toNat : Int))

/-- `(a * b) mod 256` (44_alu.md R133). -/
def aluMul (a b : Byte) : Byte := narrow (a.toNat * b.toNat)

/-- The unsigned quotient, rounded toward zero; a zero divisor raises `DivisionByZero` of the pc (44_alu.md R134). -/
def aluDiv (pc : Nat) (a b : Byte) : Attempt Byte :=
  if b.toNat = 0 then .error ⟨.divisionByZero, pc⟩ else .ok (narrow (a.toNat / b.toNat))

/-- The unsigned remainder; a zero divisor raises `DivisionByZero` of the pc (44_alu.md R135). -/
def aluMod (pc : Nat) (a b : Byte) : Attempt Byte :=
  if b.toNat = 0 then .error ⟨.divisionByZero, pc⟩
  else .ok (narrow (a.toNat - b.toNat * (a.toNat / b.toNat)))

/-- Bitwise AND (44_alu.md R136). -/
def aluAnd (a b : Byte) : Byte := a &&& b

/-- Bitwise OR (44_alu.md R137). -/
def aluOr (a b : Byte) : Byte := a ||| b

/-- Bitwise exclusive OR (44_alu.md R138). -/
def aluXor (a b : Byte) : Byte := a ^^^ b

/-- Logical shift left by the whole byte `b`; a count of 8 or more gives 0 (44_alu.md R139). -/
def aluShl (a b : Byte) : Byte := if b.toNat ≥ 8 then 0 else narrow (a.toNat * 2 ^ b.toNat)

/-- Logical shift right by the whole byte `b`; a count of 8 or more gives 0 (44_alu.md R140). -/
def aluShr (a b : Byte) : Byte := if b.toNat ≥ 8 then 0 else narrow (a.toNat / 2 ^ b.toNat)

/-- `(a + 1) mod 256` (44_alu.md R142). -/
def aluInc (a : Byte) : Byte := narrow (a.toNat + 1)

/-- `(a - 1) mod 256` (44_alu.md R143). -/
def aluDec (a : Byte) : Byte := BitVec.ofInt 8 ((a.toNat : Int) - 1)

/-- The complement `255 - a` (44_alu.md R144). -/
def aluNot (a : Byte) : Byte := narrow (255 - a.toNat)

/-! ### Shapes -/

/-- A binary operation, its result into `x[ra]`; both operands are read before the write (44_alu.md R130). -/
def State.binary (s : State) (f : Byte → Byte → Attempt Byte) (ra rb : Byte) : Attempt State := do
  let a ← regOperand ra
  let b ← regOperand rb
  let v ← f (s.reg a) (s.reg b)
  pure ((s.setReg a v).advance 3)

/-- A unary operation, its result into `x[ra]` (44_alu.md R130). -/
def State.unary (s : State) (f : Byte → Byte) (ra : Byte) : Attempt State := do
  let a ← regOperand ra
  pure ((s.setReg a (f (s.reg a))).advance 2)

/-! ### Meanings -/

/-- ADD (44_alu.md R131). -/
def execAdd (ra rb : Byte) (s : State) : Host.Outcome State Fault Refusal :=
  s.commit (s.binary (fun a b => .ok (aluAdd a b)) ra rb)

/-- SUB (44_alu.md R132). -/
def execSub (ra rb : Byte) (s : State) : Host.Outcome State Fault Refusal :=
  s.commit (s.binary (fun a b => .ok (aluSub a b)) ra rb)

/-- MUL (44_alu.md R133). -/
def execMul (ra rb : Byte) (s : State) : Host.Outcome State Fault Refusal :=
  s.commit (s.binary (fun a b => .ok (aluMul a b)) ra rb)

/-- DIV (44_alu.md R134). -/
def execDiv (ra rb : Byte) (s : State) : Host.Outcome State Fault Refusal :=
  s.commit (s.binary (aluDiv s.pc) ra rb)

/-- MOD (44_alu.md R135). -/
def execMod (ra rb : Byte) (s : State) : Host.Outcome State Fault Refusal :=
  s.commit (s.binary (aluMod s.pc) ra rb)

/-- AND (44_alu.md R136). -/
def execAnd (ra rb : Byte) (s : State) : Host.Outcome State Fault Refusal :=
  s.commit (s.binary (fun a b => .ok (aluAnd a b)) ra rb)

/-- OR (44_alu.md R137). -/
def execOr (ra rb : Byte) (s : State) : Host.Outcome State Fault Refusal :=
  s.commit (s.binary (fun a b => .ok (aluOr a b)) ra rb)

/-- XOR (44_alu.md R138). -/
def execXor (ra rb : Byte) (s : State) : Host.Outcome State Fault Refusal :=
  s.commit (s.binary (fun a b => .ok (aluXor a b)) ra rb)

/-- SHL (44_alu.md R139). -/
def execShl (ra rb : Byte) (s : State) : Host.Outcome State Fault Refusal :=
  s.commit (s.binary (fun a b => .ok (aluShl a b)) ra rb)

/-- SHR (44_alu.md R140). -/
def execShr (ra rb : Byte) (s : State) : Host.Outcome State Fault Refusal :=
  s.commit (s.binary (fun a b => .ok (aluShr a b)) ra rb)

/-- CMP: FL is overwritten as a whole and no register changes (44_alu.md R141). -/
def execCmp (ra rb : Byte) (s : State) : Host.Outcome State Fault Refusal := s.commit do
  let a ← regOperand ra
  let b ← regOperand rb
  pure ((s.setFl (compareFlags (s.reg a) (s.reg b))).advance 3)

/-- INC (44_alu.md R142). -/
def execInc (ra : Byte) (s : State) : Host.Outcome State Fault Refusal := s.commit (s.unary aluInc ra)

/-- DEC (44_alu.md R143). -/
def execDec (ra : Byte) (s : State) : Host.Outcome State Fault Refusal := s.commit (s.unary aluDec ra)

/-- NOT (44_alu.md R144). -/
def execNot (ra : Byte) (s : State) : Host.Outcome State Fault Refusal := s.commit (s.unary aluNot ra)

end Sys2Proof.Machine
end

