-- ==== Sys2Proof/Machine/ControlTransfer.lean ====
section
/-! DEFINITION. The meanings of CALL, RET, JMP and the conditional jumps (45_control_transfer.md). -/

namespace Sys2Proof.Machine

/-- CALL: push the return address, then the pc is `x[ra]`, read after the SP update (45_control_transfer.md R162). A
return address that does not fit a byte raises `OutOfBounds` before anything is pushed. -/
def execCall (ra : Byte) (s : State) : Host.Outcome State Fault Refusal := s.commit do
  let a ← regOperand ra
  if s.returnAddress > 255 then
    .error ⟨.outOfBounds, s.returnAddress⟩
  else do
    let t ← s.push fun _ => narrow s.returnAddress
    pure (t.jump (t.reg a))

/-- RET: pop the pc (45_control_transfer.md R163). -/
def execRet (s : State) : Host.Outcome State Fault Refusal := s.commit do
  let t ← s.top
  pure (s.incSp.jump t)

/-- JMP (45_control_transfer.md R166). -/
def execJmp (ra : Byte) (s : State) : Host.Outcome State Fault Refusal := s.commit do
  let a ← regOperand ra
  pure (s.jump (s.reg a))

/-- A conditional jump: the register byte is checked whether or not the jump is taken (30_encoding.md R74); not taken, the
pc advances by 2 (45_control_transfer.md R173). -/
def State.jumpIf (s : State) (cond : Byte → Bool) (ra : Byte) : Attempt State := do
  let a ← regOperand ra
  pure (if cond s.fl then s.jump (s.reg a) else s.advance 2)

/-- JEQ (45_control_transfer.md R167). -/
def execJeq (ra : Byte) (s : State) : Host.Outcome State Fault Refusal := s.commit (s.jumpIf condEq ra)

/-- JNE (45_control_transfer.md R168). -/
def execJne (ra : Byte) (s : State) : Host.Outcome State Fault Refusal := s.commit (s.jumpIf condNe ra)

/-- JGT (45_control_transfer.md R169). -/
def execJgt (ra : Byte) (s : State) : Host.Outcome State Fault Refusal := s.commit (s.jumpIf condGt ra)

/-- JLT (45_control_transfer.md R170). -/
def execJlt (ra : Byte) (s : State) : Host.Outcome State Fault Refusal := s.commit (s.jumpIf condLt ra)

/-- JLE (45_control_transfer.md R171). -/
def execJle (ra : Byte) (s : State) : Host.Outcome State Fault Refusal := s.commit (s.jumpIf condLe ra)

/-- JGE (45_control_transfer.md R172). -/
def execJge (ra : Byte) (s : State) : Host.Outcome State Fault Refusal := s.commit (s.jumpIf condGe ra)

end Sys2Proof.Machine
end

