-- ==== Sys2Proof/Machine/HaltNop.lean ====
section
/-! DEFINITION. The meanings of HLT and NOP (40_halt_nop.md). -/

namespace Sys2Proof.Machine

/-- HLT: the running flag is cleared and the pc is not changed (40_halt_nop.md R90). -/
def execHlt (s : State) : Host.Outcome State Fault Refusal := s.commit (.ok s.halt)

/-- NOP: the pc advances by 1 (40_halt_nop.md R91). -/
def execNop (s : State) : Host.Outcome State Fault Refusal := s.commit (.ok (s.advance 1))

end Sys2Proof.Machine
end

