-- ==== Sys2Proof/Machine/IntIret.lean ====
section
/-! DEFINITION. The meanings of INT and IRET, reserved opcodes that execute as no-ops (46_int_iret.md). -/

namespace Sys2Proof.Machine

/-- INT: the pc advances by 2 and the operand byte is not interpreted (46_int_iret.md R180). -/
def execInt (_b : Byte) (s : State) : Host.Outcome State Fault Refusal := s.commit (.ok (s.advance 2))

/-- IRET: the pc advances by 1; nothing is popped or restored (46_int_iret.md R181). -/
def execIret (s : State) : Host.Outcome State Fault Refusal := s.commit (.ok (s.advance 1))

end Sys2Proof.Machine
end

