-- ==== Sys2Proof/Machine/LoadStore.lean ====
section
/-! DEFINITION. The meanings of LDI, LD and ST (41_load_store.md). -/

namespace Sys2Proof.Machine

/-- LDI: the immediate byte into `x[rd]` (41_load_store.md R100). -/
def execLdi (rd imm8 : Byte) (s : State) : Host.Outcome State Fault Refusal := s.commit do
  let d ← regOperand rd
  pure ((s.setReg d (immOperand imm8)).advance 3)

/-- LD: the cell that `x[rb]` addresses into `x[ra]`; the address is read first (41_load_store.md R101). -/
def execLd (ra rb : Byte) (s : State) : Host.Outcome State Fault Refusal := s.commit do
  let a ← regOperand ra
  let b ← regOperand rb
  let v ← s.memRead (s.address b)
  pure ((s.setReg a v).advance 3)

/-- ST: `x[rb]` into the cell that `x[ra]` addresses (41_load_store.md R102). -/
def execSt (ra rb : Byte) (s : State) : Host.Outcome State Fault Refusal := s.commit do
  let a ← regOperand ra
  let b ← regOperand rb
  let t ← s.memWrite (s.address a) (s.reg b)
  pure (t.advance 3)

end Sys2Proof.Machine
end

