-- ==== Sys2Proof/Machine/Output.lean ====
section
/-! DEFINITION. The console port and the meanings of PRN and PRA (43_output.md). -/

namespace Sys2Proof.Machine

/-- The shape of PRN and PRA: emit one event made of `x[ra]`. -/
def State.print (s : State) (event : Byte → OutputEvent) (ra : Byte) : Attempt State := do
  let a ← regOperand ra
  pure ((s.emit (event (s.reg a))).advance 2)

/-- PRN: emit the value of `x[ra]`, to be shown in decimal (43_output.md R121). -/
def execPrn (ra : Byte) (s : State) : Host.Outcome State Fault Refusal := s.commit (s.print .dec ra)

/-- PRA: emit the value of `x[ra]`, to be shown as a character code (43_output.md R122). -/
def execPra (ra : Byte) (s : State) : Host.Outcome State Fault Refusal := s.commit (s.print .char ra)

/-- How the host renders an event (43_output.md R120): decimal digits without sign, leading zeros or padding and then a
newline, or the one character of that code with no newline. -/
def OutputEvent.render : OutputEvent → List Char
  | .dec v => Nat.toDigits 10 v.toNat ++ ['\n']
  | .char v => [Char.ofNat v.toNat]

end Sys2Proof.Machine
end

