-- ==== Sys2Proof/Machine/Stack.lean ====
section
/-! DEFINITION. The meanings of PUSH and POP (42_stack.md). -/

namespace Sys2Proof.Machine

/-- PUSH: SP down by one, then `x[ra]`, read after the SP update, is stored at SP (42_stack.md R110). -/
def execPush (ra : Byte) (s : State) : Host.Outcome State Fault Refusal := s.commit do
  let a ← regOperand ra
  let t ← s.push fun moved => moved.reg a
  pure (t.advance 2)

/-- POP: the byte at SP into `x[rd]`, then `x[7]`, read after that write, up by one (42_stack.md R111). -/
def execPop (rd : Byte) (s : State) : Host.Outcome State Fault Refusal := s.commit do
  let d ← regOperand rd
  let v ← s.top
  pure ((s.setReg d v).incSp.advance 2)

end Sys2Proof.Machine
end

