-- ==== Sys2Proof/Machine/Fetch.lean ====
section
/-! DEFINITION. The fetch and decode part of the execution cycle (30_encoding.md R70 to R73), and where a table word has to
be laid down for the next step to fetch it. -/

namespace Sys2Proof.Machine

/-- With `OPERAND_PREFETCH`, every cycle reads `pc+1` and `pc+2` and does not use the values (30_encoding.md R73). -/
def State.prefetch (s : State) : Attempt Unit :=
  if s.cfg.operandPrefetch then do
    let _ ← s.memRead (s.pc + 1)
    let _ ← s.memRead (s.pc + 2)
    pure ()
  else pure ()

/-- Operand byte `k` of an instruction of the given width, if it has one; a byte it does not have is not read
(30_encoding.md R73). -/
def State.operandByte (s : State) (width k : Nat) : Attempt Byte :=
  if k < width then s.memRead (s.pc + k) else pure 0

/-- The cycle up to the register check: opcode fetch, prefetch, dispatch lookup, operand fetch (30_encoding.md R70). -/
def State.fetch (s : State) : Attempt Instr := do
  let op ← s.memRead s.pc
  s.prefetch
  match s.cfg.opcodeMap.lookup op with
  | none => .error ⟨.unimplementedOpcode, op.toNat⟩
  | some mn => do
    let b1 ← s.operandByte mn.width 1
    let b2 ← s.operandByte mn.width 2
    pure (mn.instr b1 b2)

/-- The cells from `a` on replaced by the bytes, as far as those cells exist. -/
def Memory.layDown (memSize : Nat) (m : Memory) (a : Nat) (bytes : List Byte) : Memory :=
  pokeAll m a (bytes.take (memSize - a))

end Sys2Proof.Machine
end

