-- ==== Sys2Proof/Machine/Step.lean ====
section
/-! DEFINITION. One step: one whole instruction of the execution cycle (30_encoding.md R70). -/

namespace Sys2Proof.Machine

/-- One step. Only a core whose status is Running has one; a fault raised by the fetch sets the fault record and nothing
else, exactly as one raised by the instruction (30_encoding.md R70, 60_exceptions.md R205). -/
def step (s : State) : Host.Outcome State Fault Refusal :=
  match s.status with
  | .halted => .fault .halted
  | .faulted r => .fault (.faulted r)
  | .running =>
    match s.fetch with
    | .error t => .next (s.raise t)
    | .ok i => exec i s

/-- The state with a table word's bytes laid down at the pc, where the next step fetches them (log entry 8). -/
def State.withFetchWord (s : State) (nbits w : Nat) : State :=
  { s with mem := Memory.layDown s.cfg.memSize s.mem s.pc (tableBytes nbits w) }

end Sys2Proof.Machine
end

