-- ==== Sys2Proof/Machine/Interface.lean ====
section
/-! DEFINITION. The host's operations (60_exceptions.md R212): `construct()` is `State.construct`; here are `load(image)`
(70_reset_and_hazards.md R241) and `run()`, the latter by the number of steps it has taken (60_exceptions.md R213). -/

namespace Sys2Proof.Machine

/-- Why `load` refuses: never recorded in the core's `fault` (60_exceptions.md R206). -/
inductive LoadError where
  | imageTooLarge
  deriving DecidableEq, Repr

/-- `load(image)`: the bytes into memory from address 0, or nothing at all (70_reset_and_hazards.md R241). -/
def State.load (s : State) (image : List Byte) : Except LoadError State :=
  if image.length > s.cfg.memSize then .error .imageTooLarge
  else .ok { s with mem := Memory.pokeAll s.mem 0 image }

/-- The state after at most `n` steps of `run()`, which repeats the step while the status is Running
(60_exceptions.md R212). A stopped core takes no step (R213). -/
def State.runFor : Nat → State → State
  | 0, s => s
  | n + 1, s =>
    match step s with
    | .next t => runFor n t
    | .fault _ => s
    | .refused _ => s

/-- What `run()` gives back. -/
inductive RunResult where
  | success
  | fault (r : FaultRecord)
  deriving DecidableEq, Repr

/-- What `run()` returns in this state, or `none` if it goes on (60_exceptions.md R213). -/
def State.runResult (s : State) : Option RunResult :=
  match s.status with
  | .running => none
  | .halted => some .success
  | .faulted r => some (.fault r)

end Sys2Proof.Machine
end

