-- ==== Sys2Proof/Safety.lean ====
section
/-! DEFINITION. What claims are stated in: how a run ends (60_exceptions.md R214), the invariant every step keeps, and
which registers, cells and flags an instruction reads and writes (10_state.md R38, 20_memory.md R41). -/

namespace Sys2Proof.Machine

/-! ### The end of a run -/

/-- The run ends well: the core halts (60_exceptions.md R214). -/
def State.EndsWell (s : State) : Prop := ∃ n, (s.runFor n).status = .halted

/-- The run ends badly: the core faults (60_exceptions.md R214). -/
def State.EndsBadly (s : State) : Prop := ∃ n r, (s.runFor n).status = .faulted r

/-- The run never ends (60_exceptions.md R213, R214). -/
def State.Hangs (s : State) : Prop := ∀ n, (s.runFor n).status = .running

/-! ### The invariant -/

/-- The values FL can hold: 0 before the first CMP, and then one of E, G, L (10_state.md R27, R29). -/
def LegalFlags (fl : Byte) : Prop := fl = 0 ∨ fl = 1 ∨ fl = 2 ∨ fl = 4

/-- What a fault record's kind says of its value (60_exceptions.md R200). -/
def FaultRecord.Legal (c : Config) (r : FaultRecord) : Prop :=
  match r.kind with
  | .outOfBounds => c.memSize ≤ r.value
  | .divisionByZero => r.value = r.atPc
  | .unimplementedOpcode => ∃ op : Byte, r.value = op.toNat ∧ c.opcodeMap.lookup op = none
  | .invalidRegister => 8 ≤ r.value ∧ r.value ≤ 255

/-- The invariant of the machine. -/
structure State.Inv (s : State) : Prop where
  /-- The parameters are ones the model accepts (00_scope.md R4). -/
  cfg_wf : s.cfg.wf = true
  /-- Memory is in its canonical form. -/
  mem_wf : Memory.wf s.mem = true
  /-- No cell outside the address space is listed (20_memory.md R41). -/
  mem_bound : ∀ c ∈ s.mem, c.1 < s.cfg.memSize
  /-- At most one of E, G, L is set and bits 7:3 are 0 (10_state.md R27, R29). -/
  flags : LegalFlags s.fl
  /-- The reachable values of the pc (10_state.md R26). -/
  pc_bound : s.pc ≤ max s.cfg.memSize 255
  /-- A fault record names the pc it was raised at, holds a value of its kind, and left the running flag alone
  (60_exceptions.md R200, 10_state.md R30). -/
  fault_legal : ∀ r, s.fault = some r → r.atPc = s.pc ∧ r.Legal s.cfg ∧ s.running = true

/-! ### What an instruction reads and writes -/

/-- The numbers of the general registers an instruction reads (10_state.md R38). -/
def readRegs : Instr → List Nat
  | .hlt => []
  | .nop => []
  | .ldi _ _ => []
  | .ld _ rb => [rb.toNat]
  | .st ra rb => [ra.toNat, rb.toNat]
  | .push ra => [7, ra.toNat]
  | .pop _ => [7]
  | .prn ra => [ra.toNat]
  | .pra ra => [ra.toNat]
  | .add ra rb => [ra.toNat, rb.toNat]
  | .sub ra rb => [ra.toNat, rb.toNat]
  | .mul ra rb => [ra.toNat, rb.toNat]
  | .div ra rb => [ra.toNat, rb.toNat]
  | .mod ra rb => [ra.toNat, rb.toNat]
  | .and ra rb => [ra.toNat, rb.toNat]
  | .or ra rb => [ra.toNat, rb.toNat]
  | .xor ra rb => [ra.toNat, rb.toNat]
  | .shl ra rb => [ra.toNat, rb.toNat]
  | .shr ra rb => [ra.toNat, rb.toNat]
  | .cmp ra rb => [ra.toNat, rb.toNat]
  | .inc ra => [ra.toNat]
  | .dec ra => [ra.toNat]
  | .not ra => [ra.toNat]
  | .call ra => [7, ra.toNat]
  | .ret => [7]
  | .jmp ra => [ra.toNat]
  | .jeq ra => [ra.toNat]
  | .jne ra => [ra.toNat]
  | .jgt ra => [ra.toNat]
  | .jlt ra => [ra.toNat]
  | .jle ra => [ra.toNat]
  | .jge ra => [ra.toNat]
  | .int _ => []
  | .iret => []

/-- The numbers of the general registers an instruction writes (10_state.md R38). -/
def writtenRegs : Instr → List Nat
  | .hlt => []
  | .nop => []
  | .ldi rd _ => [rd.toNat]
  | .ld ra _ => [ra.toNat]
  | .st _ _ => []
  | .push _ => [7]
  | .pop rd => [rd.toNat, 7]
  | .prn _ => []
  | .pra _ => []
  | .add ra _ => [ra.toNat]
  | .sub ra _ => [ra.toNat]
  | .mul ra _ => [ra.toNat]
  | .div ra _ => [ra.toNat]
  | .mod ra _ => [ra.toNat]
  | .and ra _ => [ra.toNat]
  | .or ra _ => [ra.toNat]
  | .xor ra _ => [ra.toNat]
  | .shl ra _ => [ra.toNat]
  | .shr ra _ => [ra.toNat]
  | .cmp _ _ => []
  | .inc ra => [ra.toNat]
  | .dec ra => [ra.toNat]
  | .not ra => [ra.toNat]
  | .call _ => [7]
  | .ret => [7]
  | .jmp _ => []
  | .jeq _ => []
  | .jne _ => []
  | .jgt _ => []
  | .jlt _ => []
  | .jle _ => []
  | .jge _ => []
  | .int _ => []
  | .iret => []

/-- The address an instruction stores to, if it stores: ST, PUSH and CALL do, and no other (20_memory.md R41, R48). A form
whose register byte names no register stores nothing. -/
def storeAddress (i : Instr) (s : State) : Option Nat :=
  match i with
  | .hlt => none
  | .nop => none
  | .ldi _ _ => none
  | .ld _ _ => none
  | .st ra rb => Except.toOption do
    let a ← regOperand ra
    let _ ← regOperand rb
    pure (s.address a)
  | .push ra => (regOperand ra).toOption.map fun _ => s.pushAddress
  | .pop _ => none
  | .prn _ => none
  | .pra _ => none
  | .add _ _ => none
  | .sub _ _ => none
  | .mul _ _ => none
  | .div _ _ => none
  | .mod _ _ => none
  | .and _ _ => none
  | .or _ _ => none
  | .xor _ _ => none
  | .shl _ _ => none
  | .shr _ _ => none
  | .cmp _ _ => none
  | .inc _ => none
  | .dec _ => none
  | .not _ => none
  | .call ra => (regOperand ra).toOption.map fun _ => s.pushAddress
  | .ret => none
  | .jmp _ => none
  | .jeq _ => none
  | .jne _ => none
  | .jgt _ => none
  | .jlt _ => none
  | .jle _ => none
  | .jge _ => none
  | .int _ => none
  | .iret => none

/-- The address an instruction reads data from, if it reads: LD, POP and RET do, and no other (20_memory.md R41, R48). A
form whose register byte names no register reads nothing. -/
def loadAddress (i : Instr) (s : State) : Option Nat :=
  match i with
  | .hlt => none
  | .nop => none
  | .ldi _ _ => none
  | .ld ra rb => Except.toOption do
    let _ ← regOperand ra
    let b ← regOperand rb
    pure (s.address b)
  | .st _ _ => none
  | .push _ => none
  | .pop rd => (regOperand rd).toOption.map fun _ => s.sp.toNat
  | .prn _ => none
  | .pra _ => none
  | .add _ _ => none
  | .sub _ _ => none
  | .mul _ _ => none
  | .div _ _ => none
  | .mod _ _ => none
  | .and _ _ => none
  | .or _ _ => none
  | .xor _ _ => none
  | .shl _ _ => none
  | .shr _ _ => none
  | .cmp _ _ => none
  | .inc _ => none
  | .dec _ => none
  | .not _ => none
  | .call _ => none
  | .ret => some s.sp.toNat
  | .jmp _ => none
  | .jeq _ => none
  | .jne _ => none
  | .jgt _ => none
  | .jlt _ => none
  | .jle _ => none
  | .jge _ => none
  | .int _ => none
  | .iret => none

/-- The six conditional jumps are the instructions that read FL (10_state.md R28). -/
def readsFlags : Instr → Bool
  | .hlt => false
  | .nop => false
  | .ldi _ _ => false
  | .ld _ _ => false
  | .st _ _ => false
  | .push _ => false
  | .pop _ => false
  | .prn _ => false
  | .pra _ => false
  | .add _ _ => false
  | .sub _ _ => false
  | .mul _ _ => false
  | .div _ _ => false
  | .mod _ _ => false
  | .and _ _ => false
  | .or _ _ => false
  | .xor _ _ => false
  | .shl _ _ => false
  | .shr _ _ => false
  | .cmp _ _ => false
  | .inc _ => false
  | .dec _ => false
  | .not _ => false
  | .call _ => false
  | .ret => false
  | .jmp _ => false
  | .jeq _ => true
  | .jne _ => true
  | .jgt _ => true
  | .jlt _ => true
  | .jle _ => true
  | .jge _ => true
  | .int _ => false
  | .iret => false

/-- The bytes of memory from the pc on, at most three, as far as memory goes: all a cycle can fetch. -/
def State.window (s : State) : List Byte :=
  ([s.pc, s.pc + 1, s.pc + 2].filter fun a => decide (a < s.cfg.memSize)).map (Memory.peek s.mem)

end Sys2Proof.Machine
end

