-- ==== Sys2Proof/Certificates/Slice0/Obligations.lean ====
section
/-! DEFINITION. The statements for the provers. A register operand of a well-formed instruction is written `a.byte` for a
register `a` (30_encoding.md R78); operand bytes that name no register are the subject of `InvalidRegisterOperandFaults`.
A fault raised by an instruction is a next state that differs in the fault record alone (log entries 3 and 10); what the
record's fields hold, and which fault is reported where several apply, is the spec's own choice (log entry 11). Where a
statement rests on another such choice, its docstring names the log entry. -/

open Sys2Proof Sys2Proof.Machine

/-! ### Encoding -/

/-- One word of each format and family decodes as the opcode table says, the first operand in operand byte 1. The opcode
values are the default of OPCODE_MAP, marked PRESUMED in log entry 1. -/
def Obligations.OpcodeTableWordsDecode : Prop :=
  decodeTableWord 8 0x01 = some .hlt ∧
  decodeTableWord 24 0x080082 = some (.ldi 0 8) ∧
  decodeTableWord 24 0x010284 = some (.st 2 1) ∧
  decodeTableWord 16 0x0345 = some (.push 3) ∧
  decodeTableWord 16 0x0048 = some (.pra 0) ∧
  decodeTableWord 24 0x0100A3 = some (.div 0 1) ∧
  decodeTableWord 16 0x0366 = some (.dec 3) ∧
  decodeTableWord 8 0x11 = some .ret ∧
  decodeTableWord 16 0x015A = some (.jge 1) ∧
  decodeTableWord 16 0xFF52 = some (.int 0xFF)

/-- Under every opcode map that gives the mnemonics distinct bytes, decoding an instruction's bytes gives it back, with
every operand at every byte value, and leaves what follows it. -/
def Obligations.DecodeOfEncodeIsTheInstruction : Prop :=
  ∀ m : OpcodeMap, m.distinct = true → ∀ (i : Instr) (rest : List Byte), decode m (encode m i ++ rest) = .ok (i, rest)

/-- Whatever decodes is the bytes of the instruction it decodes to, followed by what is left: no bit of an instruction's
bytes is dropped, and its width is the mnemonic's. -/
def Obligations.DecodedBytesAreTheEncoding : Prop :=
  ∀ (m : OpcodeMap) (bytes : List Byte) (i : Instr) (rest : List Byte),
    decode m bytes = .ok (i, rest) → bytes = encode m i ++ rest ∧ bytes.length = i.width + rest.length

/-- The decoder rejects an opcode byte by name exactly when no mnemonic has it, and then it looks at no operand byte. -/
def Obligations.DecoderRejectsExactlyUnlistedOpcodes : Prop :=
  ∀ (m : OpcodeMap) (op : Byte) (rest : List Byte),
    decode m (op :: rest) = .error (.unimplementedOpcode op) ↔ ∀ mn : Mnemonic, m.byteOf mn ≠ op

/-- The illegal bytes of the default opcode map are the 222 that R67 lists (PRESUMED, log entry 1). -/
def Obligations.IllegalBytesOfTheDefaultMap : Prop :=
  ∀ op : Byte, OpcodeMap.default.lookup op = none ↔
    (0x02 ≤ op ∧ op ≤ 0x10) ∨ op = 0x12 ∨ (0x14 ≤ op ∧ op ≤ 0x44) ∨ (0x49 ≤ op ∧ op ≤ 0x4F) ∨ op = 0x51 ∨ op = 0x53 ∨
    (0x5B ≤ op ∧ op ≤ 0x64) ∨ op = 0x67 ∨ op = 0x68 ∨ (0x6A ≤ op ∧ op ≤ 0x81) ∨ (0x85 ≤ op ∧ op ≤ 0x9F) ∨ op = 0xA5 ∨
    op = 0xA6 ∨ op = 0xA9 ∨ 0xAE ≤ op

/-! ### The cycle -/

/-- A step runs the decoded instruction: when the core is Running and the bytes at the pc decode to `i` (and, with operand
prefetch, `pc+1` and `pc+2` exist), the step is `exec i` of that very state; nothing is added around it. -/
def Obligations.StepRunsTheDecodedInstruction : Prop :=
  ∀ (s : State) (i : Instr) (rest : List Byte),
    s.status = .running → (s.cfg.operandPrefetch = true → s.pc + 2 < s.cfg.memSize) →
    decode s.cfg.opcodeMap s.window = .ok (i, rest) → step s = exec i s

/-- The faults of the cycle before the register check, in the order of R207: the opcode fetch; with prefetch the reads of
`pc+1` and `pc+2`; the dispatch lookup; operand byte 1; operand byte 2. Each sets the fault record and nothing else. The
order and the prefetch are the spec's own choices (log entries 5 and 11). -/
def Obligations.FetchFaultsInOrder : Prop :=
  ∀ s : State, s.status = .running →
    (s.cfg.memSize ≤ s.pc → step s = .next { s with fault := some ⟨.outOfBounds, s.pc, s.pc⟩ }) ∧
    (s.pc < s.cfg.memSize → s.cfg.operandPrefetch = true → s.cfg.memSize ≤ s.pc + 1 →
      step s = .next { s with fault := some ⟨.outOfBounds, s.pc + 1, s.pc⟩ }) ∧
    (s.pc + 1 < s.cfg.memSize → s.cfg.operandPrefetch = true → s.cfg.memSize ≤ s.pc + 2 →
      step s = .next { s with fault := some ⟨.outOfBounds, s.pc + 2, s.pc⟩ }) ∧
    (s.pc < s.cfg.memSize → (s.cfg.operandPrefetch = true → s.pc + 2 < s.cfg.memSize) →
      s.cfg.opcodeMap.lookup (Memory.peek s.mem s.pc) = none →
      step s = .next { s with fault := some ⟨.unimplementedOpcode, (Memory.peek s.mem s.pc).toNat, s.pc⟩ }) ∧
    (∀ mn, s.pc < s.cfg.memSize → s.cfg.operandPrefetch = false →
      s.cfg.opcodeMap.lookup (Memory.peek s.mem s.pc) = some mn → 2 ≤ mn.width → s.cfg.memSize ≤ s.pc + 1 →
      step s = .next { s with fault := some ⟨.outOfBounds, s.pc + 1, s.pc⟩ }) ∧
    (∀ mn, s.pc + 1 < s.cfg.memSize → s.cfg.operandPrefetch = false →
      s.cfg.opcodeMap.lookup (Memory.peek s.mem s.pc) = some mn → mn.width = 3 → s.cfg.memSize ≤ s.pc + 2 →
      step s = .next { s with fault := some ⟨.outOfBounds, s.pc + 2, s.pc⟩ })

/-- An opcode byte without a dispatch entry: the fault `UnimplementedOpcode` reports that exact byte, the pc is unchanged,
and the run stops at once with that fault (R203). -/
def Obligations.UnlistedOpcodeStopsTheRun : Prop :=
  ∀ (s : State) (op : Byte),
    s.status = .running → (s.cfg.operandPrefetch = true → s.pc + 2 < s.cfg.memSize) →
    s.memRead s.pc = .ok op → s.cfg.opcodeMap.lookup op = none →
    ∃ (t : State) (r : FaultRecord), step s = .next t ∧ t.fault = some r ∧
      r.kind = .unimplementedOpcode ∧ r.value = op.toNat ∧ t.pc = s.pc ∧
      step t = .fault (.faulted r) ∧ (∀ n, t.runFor n = t) ∧ t.runResult = some (.fault r)

/-- A Running core always has a next state, and no other core has one: no instruction is refused and none gets stuck. -/
def Obligations.ExactlyRunningCoresStep : Prop :=
  ∀ s : State, (∃ t, step s = .next t) ↔ s.status = .running

/-- Every instruction, with every operand byte, answers a next state in every state. -/
def Obligations.EveryInstructionAnswersANextState : Prop :=
  ∀ (i : Instr) (s : State), ∃ t, exec i s = .next t

/-- A Halted or Faulted core has no step; `run()` on it changes nothing and returns success or the same fault again
(the spec's own choice, log entry 16). -/
def Obligations.StoppedCoreStaysAsItIs : Prop :=
  ∀ s : State,
    (s.status = .halted → step s = .fault .halted ∧ (∀ n, s.runFor n = s) ∧ s.runResult = some .success) ∧
    (∀ r, s.status = .faulted r →
      step s = .fault (.faulted r) ∧ (∀ n, s.runFor n = s) ∧ s.runResult = some (.fault r))

/-- Once a run has ended, taking it further changes nothing: `run()` has one result. -/
def Obligations.EndedRunHasOneResult : Prop :=
  ∀ (s : State) (n m : Nat), (s.runFor n).status ≠ .running → n ≤ m → s.runFor m = s.runFor n

/-- A run ends in exactly one of three ways: it halts, it faults, or it hangs (the spec's own definition, log entry
16). -/
def Obligations.RunEndsWellOrBadlyOrHangs : Prop :=
  ∀ s : State, (s.EndsWell ∨ s.EndsBadly ∨ s.Hangs) ∧ ¬ (s.EndsWell ∧ s.EndsBadly) ∧
    ¬ (s.Hangs ∧ (s.EndsWell ∨ s.EndsBadly))

/-! ### Reset and load -/

/-- After `construct()` every piece of state has the value of R36's table, for every choice of the parameters; that
the fault record is empty and the output is empty is the spec's own choice (log entry 21). -/
def Obligations.ConstructSetsResetValues : Prop :=
  ∀ c : Config,
    (∀ a, Memory.peek (State.construct c).mem a = 0) ∧
    (∀ r : Reg, r ≠ 7 → (State.construct c).reg r = 0) ∧ (State.construct c).reg 7 = 0xF4 ∧
    (State.construct c).fl = 0 ∧ (State.construct c).pc = 0 ∧ (State.construct c).running = true ∧
    (State.construct c).fault = none ∧ (State.construct c).out = [] ∧ (State.construct c).cfg = c

/-- The invariant holds after `construct()` with any parameters the model accepts, and so at the model's reset state. -/
def Obligations.ResetStateMeetsInvariant : Prop :=
  (∀ c : Config, c.wf = true → (State.construct c).Inv) ∧ State.reset.Inv

/-- `load(image)`: an image longer than memory is refused and nothing changes; any other is copied from address 0, the rest
of memory and all other state untouched, in every state it is called in (R241; the latter is the spec's own choice, log
entry 16). -/
def Obligations.LoadCopiesTheImage : Prop :=
  ∀ (s : State) (image : List Byte),
    (s.cfg.memSize < image.length → s.load image = .error .imageTooLarge) ∧
    (image.length ≤ s.cfg.memSize → Memory.wf s.mem = true → ∃ m, s.load image = .ok { s with mem := m } ∧
      ∀ a, Memory.peek m a = if h : a < image.length then image[a] else Memory.peek s.mem a)

/-- The invariant holds after every step from a state where it holds: canonical memory within the address space, legal
flags, a pc in its reachable range, a fault record that names its pc and holds a value of its kind. -/
def Obligations.StepKeepsInvariant : Prop :=
  ∀ s t : State, s.Inv → step s = .next t → t.Inv

/-- `load` keeps the invariant. -/
def Obligations.LoadKeepsInvariant : Prop :=
  ∀ (s t : State) (image : List Byte), s.Inv → s.load image = .ok t → t.Inv

/-! ### The memory bus -/

/-- `MemRead`: the cell inside memory, `OutOfBounds` of the address outside, never a reduced address; and `MemWrite` fails
outside memory in the same way (R42: both do). -/
def Obligations.ReadIsBoundsChecked : Prop :=
  ∀ (s : State) (a : Nat),
    (a < s.cfg.memSize → s.memRead a = .ok (Memory.peek s.mem a)) ∧
    (s.cfg.memSize ≤ a → s.memRead a = .error ⟨.outOfBounds, a⟩ ∧ ∀ v : Byte, s.memWrite a v = .error ⟨.outOfBounds, a⟩)

/-- `MemWrite`: exactly one cell changes inside memory; outside it is `OutOfBounds` of the address, and an instruction that
raises commits nothing (R43). -/
def Obligations.WriteChangesExactlyOneCell : Prop :=
  ∀ (s : State) (a : Nat) (v : Byte),
    (a < s.cfg.memSize → Memory.wf s.mem = true → ∃ m, s.memWrite a v = .ok { s with mem := m } ∧
      Memory.wf m = true ∧ ∀ x, Memory.peek m x = if x = a then v else Memory.peek s.mem x) ∧
    (s.cfg.memSize ≤ a → s.memWrite a v = .error ⟨.outOfBounds, a⟩) ∧
    (∀ e : Trap, s.commit (.error e) = .next { s with fault := some ⟨e.kind, e.value, s.pc⟩ })

/-! ### The register check -/

/-- A register operand byte of 8 or more: whatever the instruction, its only effect is the fault `InvalidRegister` of that
byte, the first such byte in operand order, and the core has no further step. An instruction all of whose register operand
bytes are 7 or less never raises it, whatever its immediate byte or INT's byte. That such a byte faults is the spec's own
choice (log entry 9). -/
def Obligations.InvalidRegisterOperandFaults : Prop :=
  ∀ (i : Instr) (s : State),
    (∀ r : Byte, i.firstInvalid = some r → 8 ≤ r.toNat ∧
      exec i s = .next { s with fault := some ⟨.invalidRegister, r.toNat, s.pc⟩ } ∧
      step { s with fault := some ⟨.invalidRegister, r.toNat, s.pc⟩ } =
        .fault (.faulted ⟨.invalidRegister, r.toNat, s.pc⟩)) ∧
    (i.firstInvalid = none → s.fault = none →
      ∀ t f, exec i s = .next t → t.fault = some f → f.kind ≠ .invalidRegister)

/-! ### What the instructions do -/

/-- HLT clears the running flag and keeps the pc; NOP, INT (with any operand byte) and IRET only advance the pc. -/
def Obligations.HltNopIntIretResults : Prop :=
  ∀ (s : State) (b : Byte),
    exec .hlt s = .next { s with running := false } ∧
    exec .nop s = .next { s with pc := s.pc + 1 } ∧
    exec (.int b) s = .next { s with pc := s.pc + 2 } ∧
    exec .iret s = .next { s with pc := s.pc + 1 }

/-- LDI writes the immediate byte unchanged, into SP as into any other register. -/
def Obligations.LdiWritesTheImmediate : Prop :=
  ∀ (s : State) (d : Reg) (imm8 : Byte),
    exec (.ldi d.byte imm8) s = .next { s with regs := s.regs.set d.val imm8, pc := s.pc + 3 }

/-- LD reads the cell that `x[rb]` addresses into `x[ra]`, or raises `OutOfBounds` of that address. -/
def Obligations.LdReadsTheAddressedCell : Prop :=
  ∀ (s : State) (a b : Reg),
    ((s.reg b).toNat < s.cfg.memSize → exec (.ld a.byte b.byte) s =
      .next { s with regs := s.regs.set a.val (Memory.peek s.mem (s.reg b).toNat), pc := s.pc + 3 }) ∧
    (s.cfg.memSize ≤ (s.reg b).toNat → exec (.ld a.byte b.byte) s =
      .next { s with fault := some ⟨.outOfBounds, (s.reg b).toNat, s.pc⟩ })

/-- ST writes `x[rb]` to the cell that `x[ra]` addresses and to no other, or raises `OutOfBounds` of that address. -/
def Obligations.StWritesTheAddressedCell : Prop :=
  ∀ (s : State) (a b : Reg), Memory.wf s.mem = true →
    ((s.reg a).toNat < s.cfg.memSize → ∃ m, exec (.st a.byte b.byte) s = .next { s with mem := m, pc := s.pc + 3 } ∧
      ∀ x, Memory.peek m x = if x = (s.reg a).toNat then s.reg b else Memory.peek s.mem x) ∧
    (s.cfg.memSize ≤ (s.reg a).toNat → exec (.st a.byte b.byte) s =
      .next { s with fault := some ⟨.outOfBounds, (s.reg a).toNat, s.pc⟩ })

/-- PUSH: SP goes down by one modulo 256 and the byte at the new SP, and no other, takes `x[ra]` as it is after the SP
update (so PUSH R7 stores the new SP: the spec's own choice, log entry 13); or `OutOfBounds` of the new SP, with SP and
memory unchanged. -/
def Obligations.PushStoresBelowSp : Prop :=
  ∀ (s : State) (a : Reg), Memory.wf s.mem = true → ∃ sp' : Byte, sp'.toNat = (s.sp.toNat + 255) % 256 ∧
    (sp'.toNat < s.cfg.memSize → ∃ m, exec (.push a.byte) s =
        .next { s with regs := s.regs.set 7 sp', mem := m, pc := s.pc + 2 } ∧
      ∀ x, Memory.peek m x = if x = sp'.toNat then (if a = 7 then sp' else s.reg a) else Memory.peek s.mem x) ∧
    (s.cfg.memSize ≤ sp'.toNat → exec (.push a.byte) s =
      .next { s with fault := some ⟨.outOfBounds, sp'.toNat, s.pc⟩ })

/-- POP: the byte at SP goes into `x[rd]` and SP goes up by one modulo 256; POP R7 leaves the popped byte plus one (the
spec's own choice, log entry 13). The popped cell is not cleared; an SP outside memory raises `OutOfBounds` of it. -/
def Obligations.PopLoadsFromSp : Prop :=
  ∀ (s : State) (d : Reg),
    (s.sp.toNat < s.cfg.memSize → ∃ sp' : Byte,
      sp'.toNat = ((if d = 7 then Memory.peek s.mem s.sp.toNat else s.sp).toNat + 1) % 256 ∧
      exec (.pop d.byte) s =
        .next { s with regs := (s.regs.set d.val (Memory.peek s.mem s.sp.toNat)).set 7 sp', pc := s.pc + 2 }) ∧
    (s.cfg.memSize ≤ s.sp.toNat → exec (.pop d.byte) s =
      .next { s with fault := some ⟨.outOfBounds, s.sp.toNat, s.pc⟩ })

/-- PRN appends the decimal event of `x[ra]` to the output, PRA the character event; nothing else changes but the pc. -/
def Obligations.PrnPraAppendOneEvent : Prop :=
  ∀ (s : State) (a : Reg),
    exec (.prn a.byte) s = .next { s with out := s.out ++ [.dec (s.reg a)], pc := s.pc + 2 } ∧
    exec (.pra a.byte) s = .next { s with out := s.out ++ [.char (s.reg a)], pc := s.pc + 2 }

/-- ADD, SUB and MUL write the sum, difference and product modulo 256 into `x[ra]`. -/
def Obligations.AddSubMulWrapModulo256 : Prop :=
  ∀ (s : State) (a b : Reg), ∃ sum diff prod : Byte,
    sum.toNat = ((s.reg a).toNat + (s.reg b).toNat) % 256 ∧
    (diff.toNat + (s.reg b).toNat) % 256 = (s.reg a).toNat ∧
    prod.toNat = ((s.reg a).toNat * (s.reg b).toNat) % 256 ∧
    exec (.add a.byte b.byte) s = .next { s with regs := s.regs.set a.val sum, pc := s.pc + 3 } ∧
    exec (.sub a.byte b.byte) s = .next { s with regs := s.regs.set a.val diff, pc := s.pc + 3 } ∧
    exec (.mul a.byte b.byte) s = .next { s with regs := s.regs.set a.val prod, pc := s.pc + 3 }

/-- DIV and MOD with a divisor that is not 0: `x[ra]` takes the unsigned quotient rounded toward zero, or the remainder. -/
def Obligations.DivModGiveQuotientAndRemainder : Prop :=
  ∀ (s : State) (a b : Reg), s.reg b ≠ 0 → ∃ q r : Byte,
    (s.reg b).toNat * q.toNat + r.toNat = (s.reg a).toNat ∧ r.toNat < (s.reg b).toNat ∧
    exec (.div a.byte b.byte) s = .next { s with regs := s.regs.set a.val q, pc := s.pc + 3 } ∧
    exec (.mod a.byte b.byte) s = .next { s with regs := s.regs.set a.val r, pc := s.pc + 3 }

/-- DIV and MOD with a zero divisor always fault with `DivisionByZero` of their pc, nothing else changes, and the run stops
at once (R202). -/
def Obligations.DivisionByZeroAlwaysFaults : Prop :=
  ∀ (s : State) (a b : Reg), s.reg b = 0 → ∃ t, t = { s with fault := some ⟨.divisionByZero, s.pc, s.pc⟩ } ∧
    exec (.div a.byte b.byte) s = .next t ∧ exec (.mod a.byte b.byte) s = .next t ∧
    step t = .fault (.faulted ⟨.divisionByZero, s.pc, s.pc⟩)

/-- AND, OR, XOR and NOT work on each of the 8 bits alone. -/
def Obligations.LogicWorksBitByBit : Prop :=
  ∀ (s : State) (a b : Reg), ∃ land lor lxor lnot : Byte,
    (∀ k, k < 8 → land.getLsbD k = ((s.reg a).getLsbD k && (s.reg b).getLsbD k) ∧
      lor.getLsbD k = ((s.reg a).getLsbD k || (s.reg b).getLsbD k) ∧
      lxor.getLsbD k = ((s.reg a).getLsbD k ^^ (s.reg b).getLsbD k) ∧
      lnot.getLsbD k = !(s.reg a).getLsbD k) ∧
    exec (.and a.byte b.byte) s = .next { s with regs := s.regs.set a.val land, pc := s.pc + 3 } ∧
    exec (.or a.byte b.byte) s = .next { s with regs := s.regs.set a.val lor, pc := s.pc + 3 } ∧
    exec (.xor a.byte b.byte) s = .next { s with regs := s.regs.set a.val lxor, pc := s.pc + 3 } ∧
    exec (.not a.byte) s = .next { s with regs := s.regs.set a.val lnot, pc := s.pc + 2 }

/-- SHL and SHR shift by the whole byte `x[rb]`, zero-filled: bit `k` of the result is the bit that far below or above it,
or 0 where there is none, so a count of 8 or more gives 0. -/
def Obligations.ShiftsUseTheWholeCount : Prop :=
  ∀ (s : State) (a b : Reg), ∃ left right : Byte,
    (∀ k, k < 8 →
      left.getLsbD k = (decide ((s.reg b).toNat ≤ k) && (s.reg a).getLsbD (k - (s.reg b).toNat)) ∧
      right.getLsbD k = (decide (k + (s.reg b).toNat < 8) && (s.reg a).getLsbD (k + (s.reg b).toNat))) ∧
    exec (.shl a.byte b.byte) s = .next { s with regs := s.regs.set a.val left, pc := s.pc + 3 } ∧
    exec (.shr a.byte b.byte) s = .next { s with regs := s.regs.set a.val right, pc := s.pc + 3 }

/-- INC and DEC add and subtract 1 modulo 256. -/
def Obligations.IncDecWrapModulo256 : Prop :=
  ∀ (s : State) (a : Reg), ∃ up down : Byte,
    up.toNat = ((s.reg a).toNat + 1) % 256 ∧ down.toNat = ((s.reg a).toNat + 255) % 256 ∧
    exec (.inc a.byte) s = .next { s with regs := s.regs.set a.val up, pc := s.pc + 2 } ∧
    exec (.dec a.byte) s = .next { s with regs := s.regs.set a.val down, pc := s.pc + 2 }

/-- CMP overwrites the whole of FL, whatever it held, with exactly one of E (0x01), G (0x02), L (0x04) by the unsigned
order of its operands, and writes no register. -/
def Obligations.CmpSetsExactlyOneFlag : Prop :=
  ∀ (s : State) (a b : Reg), ∃ f : Byte,
    exec (.cmp a.byte b.byte) s = .next { s with fl := f, pc := s.pc + 3 } ∧
    (f = 0x01 ∨ f = 0x02 ∨ f = 0x04) ∧
    (f = 0x01 ↔ (s.reg a).toNat = (s.reg b).toNat) ∧
    (f = 0x02 ↔ (s.reg b).toNat < (s.reg a).toNat) ∧
    (f = 0x04 ↔ (s.reg a).toNat < (s.reg b).toNat)

/-- CALL, with a return address that fits a byte and a new SP inside memory: the address of the next instruction is stored
at the new SP and nowhere else, and the pc is `x[ra]` as it is after the SP update (the spec's own choice, log entry
13). -/
def Obligations.CallPushesTheReturnAddress : Prop :=
  ∀ (s : State) (a : Reg), Memory.wf s.mem = true → s.pc + 2 ≤ 255 →
    ∃ sp' ret : Byte, sp'.toNat = (s.sp.toNat + 255) % 256 ∧ ret.toNat = s.pc + 2 ∧
    (sp'.toNat < s.cfg.memSize → ∃ m, exec (.call a.byte) s =
        .next { s with regs := s.regs.set 7 sp', mem := m, pc := (if a = 7 then sp' else s.reg a).toNat } ∧
      ∀ x, Memory.peek m x = if x = sp'.toNat then ret else Memory.peek s.mem x)

/-- CALL whose return address does not fit a byte raises `OutOfBounds` of the return address, before the push is tried
(the spec's own choice, log entry 12); with one that fits, a new SP outside memory raises `OutOfBounds` of the new SP.
Nothing else changes. -/
def Obligations.CallFaultsBeforeItWrites : Prop :=
  ∀ (s : State) (a : Reg),
    (255 < s.pc + 2 → exec (.call a.byte) s = .next { s with fault := some ⟨.outOfBounds, s.pc + 2, s.pc⟩ }) ∧
    (s.pc + 2 ≤ 255 → s.cfg.memSize ≤ (s.sp.toNat + 255) % 256 → exec (.call a.byte) s =
      .next { s with fault := some ⟨.outOfBounds, (s.sp.toNat + 255) % 256, s.pc⟩ })

/-- RET: the pc takes whatever byte is at SP and SP goes up by one modulo 256; an SP outside memory raises `OutOfBounds`. -/
def Obligations.RetPopsThePc : Prop :=
  ∀ s : State,
    (s.sp.toNat < s.cfg.memSize → ∃ sp' : Byte, sp'.toNat = (s.sp.toNat + 1) % 256 ∧
      exec .ret s = .next { s with regs := s.regs.set 7 sp', pc := (Memory.peek s.mem s.sp.toNat).toNat }) ∧
    (s.cfg.memSize ≤ s.sp.toNat → exec .ret s = .next { s with fault := some ⟨.outOfBounds, s.sp.toNat, s.pc⟩ })

/-- JMP sets the pc to `x[ra]`, whatever the memory size. -/
def Obligations.JmpSetsThePc : Prop :=
  ∀ (s : State) (a : Reg), exec (.jmp a.byte) s = .next { s with pc := (s.reg a).toNat }

/-- The conditional jumps set the pc to `x[ra]` when their condition on FL's bits holds (bit 0 E, bit 1 G, bit 2 L), and
otherwise advance it by exactly 2 (R173). -/
def Obligations.ConditionalJumpsFollowFlags : Prop :=
  ∀ (s : State) (a : Reg),
    exec (.jeq a.byte) s = .next { s with pc := if s.fl.getLsbD 0 then (s.reg a).toNat else s.pc + 2 } ∧
    exec (.jne a.byte) s = .next { s with pc := if s.fl.getLsbD 0 then s.pc + 2 else (s.reg a).toNat } ∧
    exec (.jgt a.byte) s = .next { s with pc := if s.fl.getLsbD 1 then (s.reg a).toNat else s.pc + 2 } ∧
    exec (.jlt a.byte) s = .next { s with pc := if s.fl.getLsbD 2 then (s.reg a).toNat else s.pc + 2 } ∧
    exec (.jle a.byte) s =
      .next { s with pc := if s.fl.getLsbD 2 ∨ s.fl.getLsbD 0 then (s.reg a).toNat else s.pc + 2 } ∧
    exec (.jge a.byte) s =
      .next { s with pc := if s.fl.getLsbD 1 ∨ s.fl.getLsbD 0 then (s.reg a).toNat else s.pc + 2 }

/-- After CMP of `x[ra]` with `x[rb]`, each conditional jump is taken exactly when the unsigned comparison it names holds;
in a state that no CMP has run in (FL 0), JNE is taken and the other five are not. -/
def Obligations.CompareThenJumpDecides : Prop :=
  ∀ (s : State) (a b c : Reg),
    (∃ t, exec (.cmp a.byte b.byte) s = .next t ∧ ∀ u v : Byte, u = s.reg a → v = s.reg b →
      exec (.jeq c.byte) t = .next { t with pc := if u.toNat = v.toNat then (s.reg c).toNat else s.pc + 5 } ∧
      exec (.jne c.byte) t = .next { t with pc := if u.toNat ≠ v.toNat then (s.reg c).toNat else s.pc + 5 } ∧
      exec (.jgt c.byte) t = .next { t with pc := if u.toNat > v.toNat then (s.reg c).toNat else s.pc + 5 } ∧
      exec (.jlt c.byte) t = .next { t with pc := if u.toNat < v.toNat then (s.reg c).toNat else s.pc + 5 } ∧
      exec (.jle c.byte) t = .next { t with pc := if u.toNat ≤ v.toNat then (s.reg c).toNat else s.pc + 5 } ∧
      exec (.jge c.byte) t = .next { t with pc := if u.toNat ≥ v.toNat then (s.reg c).toNat else s.pc + 5 }) ∧
    (s.fl = 0 → exec (.jne c.byte) s = .next { s with pc := (s.reg c).toNat } ∧
      ∀ i ∈ [Instr.jeq c.byte, .jgt c.byte, .jlt c.byte, .jle c.byte, .jge c.byte],
        exec i s = .next { s with pc := s.pc + 2 })

/-! ### What the instructions leave alone -/

/-- R38's table: an instruction changes no general register but those it writes, and what it does depends on no general
register but those it reads. -/
def Obligations.RegistersReadAndWritten : Prop :=
  ∀ (i : Instr) (s : State),
    (∀ t, exec i s = .next t → ∀ r : Reg, r.val ∉ writtenRegs i → t.reg r = s.reg r) ∧
    (∀ (regs' : Vector Byte 8) (t t' : State),
      (∀ r : Reg, r.val ∈ readRegs i → regs'[r.val] = s.reg r) →
      exec i s = .next t → exec i { s with regs := regs' } = .next t' →
      t' = { t with regs := t'.regs } ∧
      (s.fault = none → t.fault = none → ∀ r : Reg, r.val ∈ writtenRegs i → t'.reg r = t.reg r))

/-- FL is written only by CMP, which overwrites the whole of it, and read only by the conditional jumps (R28). -/
def Obligations.FlagsWrittenByCmpReadByJumps : Prop :=
  ∀ (i : Instr) (s : State) (fl' : Byte) (t t' : State),
    exec i s = .next t → exec i { s with fl := fl' } = .next t' →
    ((∀ ra rb, i ≠ .cmp ra rb) → t.fl = s.fl) ∧
    (∀ ra rb, i = .cmp ra rb → s.fault = none → t.fault = none →
      (t.fl = 0x01 ∨ t.fl = 0x02 ∨ t.fl = 0x04) ∧ t'.fl = t.fl) ∧
    (readsFlags i = false → t' = { t with fl := t'.fl })

/-- Memory is written only by ST, PUSH and CALL, and only at the one address `storeAddress` computes; for every other
instruction, and every other address, each byte reads as before. -/
def Obligations.MemoryChangesOnlyAtTheStoreAddress : Prop :=
  ∀ (i : Instr) (s t : State), Memory.wf s.mem = true → exec i s = .next t →
    ∀ x, storeAddress i s ≠ some x → Memory.peek t.mem x = Memory.peek s.mem x

/-- What an instruction does depends on no byte of memory but the one at the address `loadAddress` computes (LD, POP and
RET; every other instruction on none): run with two memories that agree there, it leaves the same state but for memory; the
byte it stores is the same in both; every other byte of memory reads as it did in the memory it ran with, and if it faults
so does the whole memory. -/
def Obligations.DataReadsAtMostOneCell : Prop :=
  ∀ (i : Instr) (s : State) (mem' : Memory) (t t' : State),
    (∀ x, loadAddress i s = some x → Memory.peek mem' x = Memory.peek s.mem x) →
    exec i s = .next t → exec i { s with mem := mem' } = .next t' →
    t' = { t with mem := t'.mem } ∧
    (Memory.wf s.mem = true → Memory.wf mem' = true →
      (∀ x, storeAddress i s ≠ some x → Memory.peek t'.mem x = Memory.peek mem' x) ∧
      (s.fault = none → t.fault = none → ∀ x, storeAddress i s = some x → Memory.peek t'.mem x = Memory.peek t.mem x) ∧
      (s.fault = none → t.fault ≠ none → t'.mem = mem'))

/-- The running flag is true from `construct()` on, is cleared by HLT and by nothing else (no other instruction, no fault,
no load), and once it is clear no step runs that could set it, and no load sets it; a faulted core is stopped by its fault
record (R30). -/
def Obligations.OnlyHltClearsRunning : Prop :=
  (∀ c, (State.construct c).running = true) ∧
  (∀ (i : Instr) (s t : State), exec i s = .next t → t.running = (if i = .hlt then false else s.running)) ∧
  (∀ (s : State) (e : Trap), (s.raise e).running = s.running) ∧
  (∀ (s t : State) (image : List Byte), s.load image = .ok t → t.running = s.running) ∧
  (∀ s t : State, step s = .next t → s.running = true) ∧
  (∀ (s : State) (r : FaultRecord), s.fault = some r → step s = .fault (.faulted r))

/-- The output is the sequence of the events emitted since `construct()`: it is empty then, PRN and PRA append their event
at its end, nothing else touches it (no other instruction, no fault, no load), and no instruction reads it (R32). -/
def Obligations.OutputOnlyAppended : Prop :=
  (∀ c, (State.construct c).out = []) ∧
  (∀ (i : Instr) (s t t' : State) (out' : List OutputEvent),
    exec i s = .next t → exec i { s with out := out' } = .next t' →
    ∃ new : List OutputEvent, t.out = s.out ++ new ∧ t' = { t with out := out' ++ new } ∧
      (∀ a : Reg, i = .prn a.byte → new = [.dec (s.reg a)]) ∧ (∀ a : Reg, i = .pra a.byte → new = [.char (s.reg a)]) ∧
      ((∀ a : Reg, i ≠ .prn a.byte ∧ i ≠ .pra a.byte) → new = [])) ∧
  (∀ (s : State) (e : Trap), (s.raise e).out = s.out) ∧
  (∀ (s t : State) (image : List Byte), s.load image = .ok t → t.out = s.out)

/-- Faults are precise, fatal and final: a step that raises one changes the fault record alone, the record names the pc,
and the state it leaves has no further step. That nothing else changes is the spec's own choice (log entry 10). -/
def Obligations.FaultsArePreciseAndFinal : Prop :=
  ∀ (s t : State) (r : FaultRecord), step s = .next t → t.fault = some r →
    t = { s with fault := some r } ∧ r.atPc = s.pc ∧ step t = .fault (.faulted r) ∧ (∀ n, t.runFor n = t)

/-- Where the pc goes when an instruction does not fault (R25): past the instruction, whose width is the length of its
bytes; or, for CALL, JMP and the conditional jumps, to the register they name as it stands after the instruction; for RET,
to the byte at SP; for HLT, nowhere. That CALL takes the register as it stands after the SP update, which shows for CALL R7
alone, is the spec's own choice (92_eei_decisions.md D11, log entry 13). -/
def Obligations.ProgramCounterAfterAnInstruction : Prop :=
  ∀ (i : Instr) (s t : State), s.fault = none → exec i s = .next t → t.fault = none →
    (∀ m, (encode m i).length = i.width) ∧
    match i with
    | .hlt => t.pc = s.pc
    | .ret => t.pc = (Memory.peek s.mem s.sp.toNat).toNat
    | .call ra => ∃ a : Reg, ra = a.byte ∧ t.pc = (t.reg a).toNat
    | .jmp ra => ∃ a : Reg, ra = a.byte ∧ t.pc = (t.reg a).toNat
    | .jeq ra | .jne ra | .jgt ra | .jlt ra | .jle ra | .jge ra =>
      ∃ a : Reg, ra = a.byte ∧ (t.pc = (t.reg a).toNat ∨ t.pc = s.pc + i.width)
    | _ => t.pc = s.pc + i.width

/-- No step changes the parameters: the dispatch table is fixed configuration, and memory is never resized. -/
def Obligations.ConfigurationNeverChanges : Prop :=
  ∀ s t : State, step s = .next t → t.cfg = s.cfg

/-! ### Whole-machine consequences -/

/-- With 256 cells no data access is out of bounds: an instruction's only `OutOfBounds` fault is CALL's, of a return address
that does not fit a byte (log entry 12). -/
def Obligations.NoDataAccessOutOfBoundsWith256Cells : Prop :=
  ∀ (i : Instr) (s t : State) (r : FaultRecord),
    s.cfg.memSize = 256 → s.fault = none → exec i s = .next t → t.fault = some r → r.kind = .outOfBounds →
    (∃ ra, i = .call ra) ∧ r.value = s.pc + 2 ∧ 255 < s.pc + 2

/-- With SP at its reset value 0xF4, wherever the program has got to: with a memory of 0xF3 cells or less, PUSH, and CALL
with a return address that fits a byte, fault with `OutOfBounds(0xF3)`, so the first one of a program that has not set R7
does; from 0xF4 cells on they work and leave SP at 0xF3. POP and RET fault with `OutOfBounds(0xF4)` up to 0xF4 cells. -/
def Obligations.FirstPushNeedsTheResetStack : Prop :=
  (∀ c, (State.construct c).sp = 0xF4) ∧
  ∀ (s : State) (a : Reg), s.sp = 0xF4 →
    (s.cfg.memSize ≤ 0xF3 →
      exec (.push a.byte) s = .next { s with fault := some ⟨.outOfBounds, 0xF3, s.pc⟩ } ∧
      (s.pc + 2 ≤ 255 → exec (.call a.byte) s = .next { s with fault := some ⟨.outOfBounds, 0xF3, s.pc⟩ })) ∧
    (0xF4 ≤ s.cfg.memSize →
      (∃ t, exec (.push a.byte) s = .next t ∧ t.fault = s.fault ∧ t.sp = 0xF3) ∧
      (s.pc + 2 ≤ 255 → ∃ t, exec (.call a.byte) s = .next t ∧ t.fault = s.fault ∧ t.sp = 0xF3)) ∧
    (s.cfg.memSize ≤ 0xF4 →
      exec (.pop a.byte) s = .next { s with fault := some ⟨.outOfBounds, 0xF4, s.pc⟩ } ∧
      exec .ret s = .next { s with fault := some ⟨.outOfBounds, 0xF4, s.pc⟩ })

/-- PUSH then POP round-trips: for R0 to R6, with the register cleared in between, register and SP come back; for R7, PUSH
R7 then POP R7 restores SP. -/
def Obligations.PushPopRoundTrip : Prop :=
  ∀ (s : State) (a : Reg), Memory.wf s.mem = true → (s.sp.toNat + 255) % 256 < s.cfg.memSize →
    (a ≠ 7 → ∃ t u v, exec (.push a.byte) s = .next t ∧ exec (.ldi a.byte 0) t = .next u ∧
      exec (.pop a.byte) u = .next v ∧ v.regs = s.regs) ∧
    (a = 7 → ∃ t v, exec (.push a.byte) s = .next t ∧ exec (.pop a.byte) t = .next v ∧ v.regs = s.regs)

/-- CALL then RET round-trips: a RET in any state that has the SP that CALL left and the same byte at it goes on after the
CALL, with SP as it was before the CALL. -/
def Obligations.CallRetRoundTrip : Prop :=
  ∀ (s : State) (a : Reg), Memory.wf s.mem = true → s.pc + 2 ≤ 255 → (s.sp.toNat + 255) % 256 < s.cfg.memSize →
    ∃ t, exec (.call a.byte) s = .next t ∧ ∀ u : State,
      u.cfg = t.cfg → u.sp = t.sp → Memory.peek u.mem u.sp.toNat = Memory.peek t.mem t.sp.toNat →
      ∃ v, exec .ret u = .next v ∧ v.pc = s.pc + 2 ∧ v.sp = s.sp

/-- Self-modifying code takes effect at once: when a ST overwrites the byte that follows it with a one-byte instruction's
opcode, the very next step runs that instruction (the spec's own choice, log entry 18). -/
def Obligations.StoreSeenByTheNextFetch : Prop :=
  ∀ (s : State) (a b : Reg) (mn : Mnemonic), Memory.wf s.mem = true →
    s.status = .running → s.cfg.operandPrefetch = false → (s.reg a).toNat = s.pc + 3 → s.pc + 3 < s.cfg.memSize →
    s.cfg.opcodeMap.lookup (s.reg b) = some mn → mn.width = 1 →
    ∃ t, exec (.st a.byte b.byte) s = .next t ∧ step t = exec (mn.instr 0 0) t

/-- Zeroed memory executes as NOPs under a map that gives NOP the byte 0: from any Running state, the run walks to the end
of memory with nothing but the pc changed, and there the fetch faults with `OutOfBounds(MEM_SIZE)`. That NOP is the zero
byte is the default map's, PRESUMED in log entry 1. -/
def Obligations.ZeroedMemoryRunsOffTheEnd : Prop :=
  ∀ s : State, s.status = .running → s.cfg.operandPrefetch = false → s.mem = [] → s.pc ≤ s.cfg.memSize →
    s.cfg.opcodeMap.lookup 0 = some .nop →
    s.runFor (s.cfg.memSize - s.pc) = { s with pc := s.cfg.memSize } ∧
    s.runFor (s.cfg.memSize - s.pc + 1) =
      { s with pc := s.cfg.memSize, fault := some ⟨.outOfBounds, s.cfg.memSize, s.cfg.memSize⟩ }

/-- Where the host's word is laid down is where the next step fetches: from the reset state, a word that decodes to an
instruction runs as exactly that instruction. -/
def Obligations.FetchWordRunsAsTheFirstInstruction : Prop :=
  ∀ (nbits w : Nat) (i : Instr), decodeTableWord nbits w = some i →
    step (State.reset.withFetchWord nbits w) = exec i (State.reset.withFetchWord nbits w)
end

