-- ==== Sys2Proof/Laws/PerInstr.lean ====
section
/-! SUPPORT. The per-instruction lemmas: the layout of each instruction's bytes. -/

namespace Sys2Proof.Laws.Layout

/-- The layout of one instruction (30_encoding.md R60, R61, R65): its bytes are its opcode byte and its operand bytes, as
many as its width; its register operands are among its operand bytes; and the operand bytes give the instruction back. -/
def Statement (i : Instr) : Prop :=
  (∀ m : OpcodeMap, encode m i = m.byteOf i.mnemonic :: i.operandBytes) ∧
  1 + i.operandBytes.length = i.width ∧
  (∀ r ∈ i.regOperands, r ∈ i.operandBytes) ∧
  i.mnemonic.instr (i.operandBytes.getD 0 0) (i.operandBytes.getD 1 0) = i

theorem hlt : Statement .hlt := ⟨fun _ => rfl, rfl, fun _ h => h, rfl⟩

theorem nop : Statement .nop := ⟨fun _ => rfl, rfl, fun _ h => h, rfl⟩

theorem ldi (rd imm8 : Byte) : Statement (.ldi rd imm8) := ⟨fun _ => rfl, rfl, fun _ h => List.mem_append_left [imm8] h, rfl⟩

theorem ld (ra rb : Byte) : Statement (.ld ra rb) := ⟨fun _ => rfl, rfl, fun _ h => h, rfl⟩

theorem st (ra rb : Byte) : Statement (.st ra rb) := ⟨fun _ => rfl, rfl, fun _ h => h, rfl⟩

theorem push (ra : Byte) : Statement (.push ra) := ⟨fun _ => rfl, rfl, fun _ h => h, rfl⟩

theorem pop (rd : Byte) : Statement (.pop rd) := ⟨fun _ => rfl, rfl, fun _ h => h, rfl⟩

theorem prn (ra : Byte) : Statement (.prn ra) := ⟨fun _ => rfl, rfl, fun _ h => h, rfl⟩

theorem pra (ra : Byte) : Statement (.pra ra) := ⟨fun _ => rfl, rfl, fun _ h => h, rfl⟩

theorem add (ra rb : Byte) : Statement (.add ra rb) := ⟨fun _ => rfl, rfl, fun _ h => h, rfl⟩

theorem sub (ra rb : Byte) : Statement (.sub ra rb) := ⟨fun _ => rfl, rfl, fun _ h => h, rfl⟩

theorem mul (ra rb : Byte) : Statement (.mul ra rb) := ⟨fun _ => rfl, rfl, fun _ h => h, rfl⟩

theorem div (ra rb : Byte) : Statement (.div ra rb) := ⟨fun _ => rfl, rfl, fun _ h => h, rfl⟩

theorem mod (ra rb : Byte) : Statement (.mod ra rb) := ⟨fun _ => rfl, rfl, fun _ h => h, rfl⟩

theorem and (ra rb : Byte) : Statement (.and ra rb) := ⟨fun _ => rfl, rfl, fun _ h => h, rfl⟩

theorem or (ra rb : Byte) : Statement (.or ra rb) := ⟨fun _ => rfl, rfl, fun _ h => h, rfl⟩

theorem xor (ra rb : Byte) : Statement (.xor ra rb) := ⟨fun _ => rfl, rfl, fun _ h => h, rfl⟩

theorem shl (ra rb : Byte) : Statement (.shl ra rb) := ⟨fun _ => rfl, rfl, fun _ h => h, rfl⟩

theorem shr (ra rb : Byte) : Statement (.shr ra rb) := ⟨fun _ => rfl, rfl, fun _ h => h, rfl⟩

theorem cmp (ra rb : Byte) : Statement (.cmp ra rb) := ⟨fun _ => rfl, rfl, fun _ h => h, rfl⟩

theorem inc (ra : Byte) : Statement (.inc ra) := ⟨fun _ => rfl, rfl, fun _ h => h, rfl⟩

theorem dec (ra : Byte) : Statement (.dec ra) := ⟨fun _ => rfl, rfl, fun _ h => h, rfl⟩

theorem not (ra : Byte) : Statement (.not ra) := ⟨fun _ => rfl, rfl, fun _ h => h, rfl⟩

theorem call (ra : Byte) : Statement (.call ra) := ⟨fun _ => rfl, rfl, fun _ h => h, rfl⟩

theorem ret : Statement .ret := ⟨fun _ => rfl, rfl, fun _ h => h, rfl⟩

theorem jmp (ra : Byte) : Statement (.jmp ra) := ⟨fun _ => rfl, rfl, fun _ h => h, rfl⟩

theorem jeq (ra : Byte) : Statement (.jeq ra) := ⟨fun _ => rfl, rfl, fun _ h => h, rfl⟩

theorem jne (ra : Byte) : Statement (.jne ra) := ⟨fun _ => rfl, rfl, fun _ h => h, rfl⟩

theorem jgt (ra : Byte) : Statement (.jgt ra) := ⟨fun _ => rfl, rfl, fun _ h => h, rfl⟩

theorem jlt (ra : Byte) : Statement (.jlt ra) := ⟨fun _ => rfl, rfl, fun _ h => h, rfl⟩

theorem jle (ra : Byte) : Statement (.jle ra) := ⟨fun _ => rfl, rfl, fun _ h => h, rfl⟩

theorem jge (ra : Byte) : Statement (.jge ra) := ⟨fun _ => rfl, rfl, fun _ h => h, rfl⟩

theorem int (b : Byte) : Statement (.int b) := ⟨fun _ => rfl, rfl, fun _ h => absurd h List.not_mem_nil, rfl⟩

theorem iret : Statement .iret := ⟨fun _ => rfl, rfl, fun _ h => h, rfl⟩

end Sys2Proof.Laws.Layout
end

