-- ==== Sys2Proof/Laws/Decode.lean ====
section
/-! SUPPORT. The laws of the dispatch table's lookup and of the operand bytes. -/

namespace Sys2Proof

/-- The list of mnemonics is complete. -/
theorem mem_all (mn : Mnemonic) : mn ∈ Mnemonic.all := by cases mn <;> decide

/-- A lookup answers only a mnemonic whose byte it is. -/
theorem byteOf_of_lookup {m : OpcodeMap} {op : Byte} {mn : Mnemonic} (h : m.lookup op = some mn) : m.byteOf mn = op := by
  simpa using List.find?_some h

/-- A lookup answers nothing exactly when no mnemonic has the byte (30_encoding.md R67). -/
theorem lookup_eq_none {m : OpcodeMap} {op : Byte} : m.lookup op = none ↔ ∀ mn, m.byteOf mn ≠ op := by
  simp only [OpcodeMap.lookup, List.find?_eq_none, beq_iff_eq]
  exact ⟨fun h mn => h mn (mem_all mn), fun h mn _ => h mn⟩

/-- With distinct bytes, the lookup of a mnemonic's byte is that mnemonic. -/
theorem lookup_byteOf {m : OpcodeMap} (h : m.distinct = true) (mn : Mnemonic) : m.lookup (m.byteOf mn) = some mn := by
  have inj : ∀ a ∈ Mnemonic.all, ∀ b ∈ Mnemonic.all, m.byteOf a = m.byteOf b → a = b :=
    List.inj_on_of_nodup_map (of_decide_eq_true h)
  cases hl : m.lookup (m.byteOf mn) with
  | none => exact absurd rfl (lookup_eq_none.1 hl mn)
  | some mn' => rw [inj mn' (mem_all _) mn (mem_all _) (byteOf_of_lookup hl)]

/-- The default map's bytes are distinct. -/
theorem default_distinct : OpcodeMap.default.distinct = true := by decide

/-- The reference parameters are ones the model accepts. -/
theorem reference_wf : Config.reference.wf = true := by decide

end Sys2Proof
end

