-- ==== Sys2Proof/Laws/Memory.lean ====
section
/-! SUPPORT. The laws of the cells: a read after a write, and that every memory operation keeps the canonical form and the
address space. -/

namespace Sys2Proof.Machine

/-- A cell below every listed one holds the reset byte. -/
theorem peek_of_lt {m : Memory} {lo a : Nat} (h : Memory.wfFrom lo m = true) (ha : a < lo) :
    Memory.peek m a = Memory.resetByte := by
  induction m generalizing lo with
  | nil => rfl
  | cons c rest ih =>
    obtain ⟨b, w⟩ := c
    simp only [Memory.wfFrom, Bool.and_eq_true, decide_eq_true_eq] at h
    simp only [Memory.peek, if_neg (show a ≠ b by omega)]
    exact ih h.2 (by omega)

/-- A list in canonical form from `lo` is in canonical form from any lower bound. -/
theorem wfFrom_mono {m : Memory} {lo lo' : Nat} (h : Memory.wfFrom lo m = true) (hl : lo' ≤ lo) :
    Memory.wfFrom lo' m = true := by
  cases m with
  | nil => rfl
  | cons c rest =>
    simp only [Memory.wfFrom, Bool.and_eq_true, decide_eq_true_eq] at h ⊢
    exact ⟨⟨by omega, h.1.2⟩, h.2⟩

/-- Putting a byte in front of higher cells keeps the canonical form. -/
theorem putFront_wfFrom {m : Memory} {lo a : Nat} {v : Byte} (h : Memory.wfFrom (a + 1) m = true) (hl : lo ≤ a) :
    Memory.wfFrom lo (Memory.putFront a v m) = true := by
  unfold Memory.putFront
  split
  · exact wfFrom_mono h (by omega)
  · simp [Memory.wfFrom, *]

/-- Setting a cell at or above `lo` keeps the canonical form from `lo`. -/
theorem poke_wfFrom {m : Memory} {lo a : Nat} {v : Byte} (h : Memory.wfFrom lo m = true) (hl : lo ≤ a) :
    Memory.wfFrom lo (Memory.poke m a v) = true := by
  induction m generalizing lo with
  | nil => exact putFront_wfFrom rfl hl
  | cons c rest ih =>
    obtain ⟨b, w⟩ := c
    simp only [Memory.wfFrom, Bool.and_eq_true, decide_eq_true_eq] at h
    obtain ⟨⟨hb, hw⟩, hr⟩ := h
    simp only [Memory.poke]
    split
    · exact putFront_wfFrom (by simp [Memory.wfFrom, hw, hr]; omega) hl
    · split
      · subst a; exact putFront_wfFrom hr hl
      · simp only [Memory.wfFrom, hw, Bool.and_eq_true, decide_eq_true_eq]
        exact ⟨⟨hb, trivial⟩, ih hr (by omega)⟩

/-- Every write keeps the canonical form. -/
theorem poke_wf {m : Memory} (h : Memory.wf m = true) (a : Nat) (v : Byte) : Memory.wf (Memory.poke m a v) = true :=
  poke_wfFrom h (Nat.zero_le a)

/-- A block of writes keeps the canonical form. -/
theorem pokeAll_wf {m : Memory} (h : Memory.wf m = true) (a : Nat) (vs : List Byte) :
    Memory.wf (Memory.pokeAll m a vs) = true := by
  induction vs generalizing m a with
  | nil => exact h
  | cons v vs ih => exact ih (poke_wf h a v) (a + 1)

/-- What a byte put in front of higher cells makes every cell read. -/
theorem peek_putFront {m : Memory} {a : Nat} {v : Byte} (h : Memory.wfFrom (a + 1) m = true) (x : Nat) :
    Memory.peek (Memory.putFront a v m) x = if x = a then v else Memory.peek m x := by
  unfold Memory.putFront
  split
  · rename_i hv
    split
    · subst x; rw [hv]; exact peek_of_lt h (by omega)
    · rfl
  · rfl

/-- A READ AFTER A WRITE: the cell written reads as written, every other cell reads as before. -/
theorem peek_poke {m : Memory} (h : Memory.wf m = true) (a : Nat) (v : Byte) (x : Nat) :
    Memory.peek (Memory.poke m a v) x = if x = a then v else Memory.peek m x := by
  unfold Memory.wf at h
  generalize hlo : (0 : Nat) = lo at h
  clear hlo
  induction m generalizing lo with
  | nil => exact peek_putFront (m := []) rfl x
  | cons c rest ih =>
    obtain ⟨b, w⟩ := c
    simp only [Memory.wfFrom, Bool.and_eq_true, decide_eq_true_eq] at h
    obtain ⟨⟨hb, hw⟩, hr⟩ := h
    simp only [Memory.poke]
    split
    · exact peek_putFront (by simp [Memory.wfFrom, hw, hr]; omega) x
    · split
      · subst a
        rw [peek_putFront hr]
        simp only [Memory.peek]
        split <;> rfl
      · simp only [Memory.peek]
        split
        · subst x; rw [if_neg (by omega)]
        · exact ih _ hr

/-- The cell written reads as written, in any list (canonical or not). -/
theorem peek_poke_self (m : Memory) (h : Memory.wf m = true) (a : Nat) (v : Byte) :
    Memory.peek (Memory.poke m a v) a = v := by rw [peek_poke h, if_pos rfl]

/-- Writing a cell lists no address but that cell's. -/
theorem poke_mem {m : Memory} {a : Nat} {v : Byte} {c : Host.Cell} (h : c ∈ Memory.poke m a v) : c ∈ m ∨ c.1 = a := by
  have front {rest : Memory} (hc : c ∈ Memory.putFront a v rest) : c ∈ rest ∨ c.1 = a := by
    unfold Memory.putFront at hc
    split at hc
    · exact .inl hc
    · obtain rfl | hc := List.mem_cons.1 hc
      · exact .inr rfl
      · exact .inl hc
  induction m with
  | nil => exact front h
  | cons b rest ih =>
    simp only [Memory.poke] at h
    split at h
    · exact front h
    · split at h
      · exact (front h).imp_left (List.mem_cons_of_mem _)
      · obtain rfl | h := List.mem_cons.1 h
        · exact .inl List.mem_cons_self
        · exact (ih h).imp_left (List.mem_cons_of_mem _)

/-- What a block of writes makes every cell read. -/
theorem peek_pokeAll {m : Memory} (h : Memory.wf m = true) (a : Nat) (vs : List Byte) (x : Nat) :
    Memory.peek (Memory.pokeAll m a vs) x =
      if hx : a ≤ x ∧ x - a < vs.length then vs[x - a]'hx.2 else Memory.peek m x := by
  induction vs generalizing m a with
  | nil => simp [Memory.pokeAll]
  | cons v vs ih =>
    simp only [Memory.pokeAll, List.length_cons]
    rw [ih (poke_wf h a v), peek_poke h]
    by_cases hxa : x = a
    · subst x; simp
    · by_cases hx : a + 1 ≤ x ∧ x - (a + 1) < vs.length
      · obtain ⟨k, hk⟩ : ∃ k, x - a = k + 1 := ⟨x - a - 1, by omega⟩
        have hk' : x - (a + 1) = k := by omega
        simp only [hk, hk', List.getElem_cons_succ]
        rw [dif_pos (by omega), dif_pos (by omega)]
      · rw [dif_neg hx, if_neg hxa, dif_neg (by omega)]

/-- A block of writes lists no address but those of the block. -/
theorem pokeAll_mem {m : Memory} {a : Nat} {vs : List Byte} {c : Host.Cell} (h : c ∈ Memory.pokeAll m a vs) :
    c ∈ m ∨ (a ≤ c.1 ∧ c.1 < a + vs.length) := by
  induction vs generalizing m a with
  | nil => exact .inl h
  | cons v vs ih =>
    obtain h | ⟨h1, h2⟩ := ih h
    · exact (poke_mem h).imp_right fun e => by simp [e]
    · exact .inr ⟨by omega, by simp only [List.length_cons]; omega⟩

/-- What a block laid down makes every cell read: the block as far as the cells exist, the rest as before. -/
theorem peek_layDown {m : Memory} (h : Memory.wf m = true) (n a : Nat) (vs : List Byte) (x : Nat) :
    Memory.peek (Memory.layDown n m a vs) x =
      if hx : a ≤ x ∧ x - a < (vs.take (n - a)).length then (vs.take (n - a))[x - a]'hx.2 else Memory.peek m x :=
  peek_pokeAll h a _ x

/-- Laying bytes down keeps the canonical form. -/
theorem layDown_wf {m : Memory} (h : Memory.wf m = true) (n a : Nat) (vs : List Byte) :
    Memory.wf (Memory.layDown n m a vs) = true := pokeAll_wf h a _

end Sys2Proof.Machine
end

