-- ==== Sys2Proof/Laws/State.lean ====
section
/-! SUPPORT. One lemma per field per update of the state, true by unfolding the update: no later proof unfolds one. -/

namespace Sys2Proof.Machine

variable (s : State)

/-! ### `State.setReg` -/

@[simp] theorem setReg_cfg (r : Reg) (v : Byte) : (s.setReg r v).cfg = s.cfg := rfl
@[simp] theorem setReg_mem (r : Reg) (v : Byte) : (s.setReg r v).mem = s.mem := rfl
@[simp] theorem setReg_regs (r : Reg) (v : Byte) : (s.setReg r v).regs = s.regs.set r.val v := rfl
@[simp] theorem setReg_fl (r : Reg) (v : Byte) : (s.setReg r v).fl = s.fl := rfl
@[simp] theorem setReg_pc (r : Reg) (v : Byte) : (s.setReg r v).pc = s.pc := rfl
@[simp] theorem setReg_running (r : Reg) (v : Byte) : (s.setReg r v).running = s.running := rfl
@[simp] theorem setReg_fault (r : Reg) (v : Byte) : (s.setReg r v).fault = s.fault := rfl
@[simp] theorem setReg_out (r : Reg) (v : Byte) : (s.setReg r v).out = s.out := rfl

/-! ### `State.decSp` -/

@[simp] theorem decSp_cfg : (s.decSp).cfg = s.cfg := rfl
@[simp] theorem decSp_mem : (s.decSp).mem = s.mem := rfl
@[simp] theorem decSp_regs : (s.decSp).regs = s.regs.set 7 (s.sp - 1) := rfl
@[simp] theorem decSp_fl : (s.decSp).fl = s.fl := rfl
@[simp] theorem decSp_pc : (s.decSp).pc = s.pc := rfl
@[simp] theorem decSp_running : (s.decSp).running = s.running := rfl
@[simp] theorem decSp_fault : (s.decSp).fault = s.fault := rfl
@[simp] theorem decSp_out : (s.decSp).out = s.out := rfl

/-! ### `State.incSp` -/

@[simp] theorem incSp_cfg : (s.incSp).cfg = s.cfg := rfl
@[simp] theorem incSp_mem : (s.incSp).mem = s.mem := rfl
@[simp] theorem incSp_regs : (s.incSp).regs = s.regs.set 7 (s.sp + 1) := rfl
@[simp] theorem incSp_fl : (s.incSp).fl = s.fl := rfl
@[simp] theorem incSp_pc : (s.incSp).pc = s.pc := rfl
@[simp] theorem incSp_running : (s.incSp).running = s.running := rfl
@[simp] theorem incSp_fault : (s.incSp).fault = s.fault := rfl
@[simp] theorem incSp_out : (s.incSp).out = s.out := rfl

/-! ### `State.advance` -/

@[simp] theorem advance_cfg (n : Nat) : (s.advance n).cfg = s.cfg := rfl
@[simp] theorem advance_mem (n : Nat) : (s.advance n).mem = s.mem := rfl
@[simp] theorem advance_regs (n : Nat) : (s.advance n).regs = s.regs := rfl
@[simp] theorem advance_fl (n : Nat) : (s.advance n).fl = s.fl := rfl
@[simp] theorem advance_pc (n : Nat) : (s.advance n).pc = s.pc + n := rfl
@[simp] theorem advance_running (n : Nat) : (s.advance n).running = s.running := rfl
@[simp] theorem advance_fault (n : Nat) : (s.advance n).fault = s.fault := rfl
@[simp] theorem advance_out (n : Nat) : (s.advance n).out = s.out := rfl

/-! ### `State.jump` -/

@[simp] theorem jump_cfg (v : Byte) : (s.jump v).cfg = s.cfg := rfl
@[simp] theorem jump_mem (v : Byte) : (s.jump v).mem = s.mem := rfl
@[simp] theorem jump_regs (v : Byte) : (s.jump v).regs = s.regs := rfl
@[simp] theorem jump_fl (v : Byte) : (s.jump v).fl = s.fl := rfl
@[simp] theorem jump_pc (v : Byte) : (s.jump v).pc = v.toNat := rfl
@[simp] theorem jump_running (v : Byte) : (s.jump v).running = s.running := rfl
@[simp] theorem jump_fault (v : Byte) : (s.jump v).fault = s.fault := rfl
@[simp] theorem jump_out (v : Byte) : (s.jump v).out = s.out := rfl

/-! ### `State.halt` -/

@[simp] theorem halt_cfg : (s.halt).cfg = s.cfg := rfl
@[simp] theorem halt_mem : (s.halt).mem = s.mem := rfl
@[simp] theorem halt_regs : (s.halt).regs = s.regs := rfl
@[simp] theorem halt_fl : (s.halt).fl = s.fl := rfl
@[simp] theorem halt_pc : (s.halt).pc = s.pc := rfl
@[simp] theorem halt_running : (s.halt).running = false := rfl
@[simp] theorem halt_fault : (s.halt).fault = s.fault := rfl
@[simp] theorem halt_out : (s.halt).out = s.out := rfl

/-! ### `State.emit` -/

@[simp] theorem emit_cfg (e : OutputEvent) : (s.emit e).cfg = s.cfg := rfl
@[simp] theorem emit_mem (e : OutputEvent) : (s.emit e).mem = s.mem := rfl
@[simp] theorem emit_regs (e : OutputEvent) : (s.emit e).regs = s.regs := rfl
@[simp] theorem emit_fl (e : OutputEvent) : (s.emit e).fl = s.fl := rfl
@[simp] theorem emit_pc (e : OutputEvent) : (s.emit e).pc = s.pc := rfl
@[simp] theorem emit_running (e : OutputEvent) : (s.emit e).running = s.running := rfl
@[simp] theorem emit_fault (e : OutputEvent) : (s.emit e).fault = s.fault := rfl
@[simp] theorem emit_out (e : OutputEvent) : (s.emit e).out = s.out ++ [e] := rfl

/-! ### `State.setFl` -/

@[simp] theorem setFl_cfg (v : Byte) : (s.setFl v).cfg = s.cfg := rfl
@[simp] theorem setFl_mem (v : Byte) : (s.setFl v).mem = s.mem := rfl
@[simp] theorem setFl_regs (v : Byte) : (s.setFl v).regs = s.regs := rfl
@[simp] theorem setFl_fl (v : Byte) : (s.setFl v).fl = v := rfl
@[simp] theorem setFl_pc (v : Byte) : (s.setFl v).pc = s.pc := rfl
@[simp] theorem setFl_running (v : Byte) : (s.setFl v).running = s.running := rfl
@[simp] theorem setFl_fault (v : Byte) : (s.setFl v).fault = s.fault := rfl
@[simp] theorem setFl_out (v : Byte) : (s.setFl v).out = s.out := rfl

/-! ### `State.setCell` -/

@[simp] theorem setCell_cfg (a : Nat) (v : Byte) : (s.setCell a v).cfg = s.cfg := rfl
@[simp] theorem setCell_mem (a : Nat) (v : Byte) : (s.setCell a v).mem = Memory.poke s.mem a v := rfl
@[simp] theorem setCell_regs (a : Nat) (v : Byte) : (s.setCell a v).regs = s.regs := rfl
@[simp] theorem setCell_fl (a : Nat) (v : Byte) : (s.setCell a v).fl = s.fl := rfl
@[simp] theorem setCell_pc (a : Nat) (v : Byte) : (s.setCell a v).pc = s.pc := rfl
@[simp] theorem setCell_running (a : Nat) (v : Byte) : (s.setCell a v).running = s.running := rfl
@[simp] theorem setCell_fault (a : Nat) (v : Byte) : (s.setCell a v).fault = s.fault := rfl
@[simp] theorem setCell_out (a : Nat) (v : Byte) : (s.setCell a v).out = s.out := rfl

/-! ### `State.raise` -/

@[simp] theorem raise_cfg (t : Trap) : (s.raise t).cfg = s.cfg := rfl
@[simp] theorem raise_mem (t : Trap) : (s.raise t).mem = s.mem := rfl
@[simp] theorem raise_regs (t : Trap) : (s.raise t).regs = s.regs := rfl
@[simp] theorem raise_fl (t : Trap) : (s.raise t).fl = s.fl := rfl
@[simp] theorem raise_pc (t : Trap) : (s.raise t).pc = s.pc := rfl
@[simp] theorem raise_running (t : Trap) : (s.raise t).running = s.running := rfl
@[simp] theorem raise_fault (t : Trap) : (s.raise t).fault = some ⟨t.kind, t.value, s.pc⟩ := rfl
@[simp] theorem raise_out (t : Trap) : (s.raise t).out = s.out := rfl

/-! ### Reading a register -/

/-- A register just written reads back as written. -/
@[simp] theorem reg_setReg_self (r : Reg) (v : Byte) : (s.setReg r v).reg r = v := by
  simp [State.reg]

/-- Writing one register leaves the others alone. -/
theorem reg_setReg_ne {q r : Reg} (h : q ≠ r) (v : Byte) : (s.setReg r v).reg q = s.reg q := by
  have : r.val ≠ q.val := fun e => h (Fin.ext e.symm)
  simp [State.reg, this]

/-- What any register reads after one is written. -/
theorem reg_setReg (q r : Reg) (v : Byte) : (s.setReg r v).reg q = if q = r then v else s.reg q := by
  split
  · subst q; simp
  · exact reg_setReg_ne s ‹_› v

@[simp] theorem sp_setReg_sp (v : Byte) : (s.setReg spReg v).sp = v := reg_setReg_self s spReg v

@[simp] theorem sp_decSp : s.decSp.sp = s.sp - 1 := reg_setReg_self s spReg _

@[simp] theorem sp_incSp : s.incSp.sp = s.sp + 1 := reg_setReg_self s spReg _

/-- Only SP moves when SP moves down. -/
theorem reg_decSp (q : Reg) : s.decSp.reg q = if q = spReg then s.sp - 1 else s.reg q := reg_setReg s q spReg _

/-- Only SP moves when SP moves up. -/
theorem reg_incSp (q : Reg) : s.incSp.reg q = if q = spReg then s.sp + 1 else s.reg q := reg_setReg s q spReg _

@[simp] theorem reg_advance (n : Nat) (q : Reg) : (s.advance n).reg q = s.reg q := rfl
@[simp] theorem reg_jump (v : Byte) (q : Reg) : (s.jump v).reg q = s.reg q := rfl
@[simp] theorem reg_halt (q : Reg) : (s.halt).reg q = s.reg q := rfl
@[simp] theorem reg_emit (e : OutputEvent) (q : Reg) : (s.emit e).reg q = s.reg q := rfl
@[simp] theorem reg_setFl (v : Byte) (q : Reg) : (s.setFl v).reg q = s.reg q := rfl
@[simp] theorem reg_setCell (a : Nat) (v : Byte) (q : Reg) : (s.setCell a v).reg q = s.reg q := rfl
@[simp] theorem reg_raise (t : Trap) (q : Reg) : (s.raise t).reg q = s.reg q := rfl

/-! ### Status -/

@[simp] theorem status_raise (t : Trap) : (s.raise t).status = .faulted ⟨t.kind, t.value, s.pc⟩ := rfl

/-- A core is Running exactly when its running flag is set and it holds no fault. -/
theorem status_eq_running : s.status = .running ↔ s.fault = none ∧ s.running = true := by
  unfold State.status
  cases s.fault <;> cases s.running <;> simp

/-- A core is Halted exactly when its running flag is clear and it holds no fault. -/
theorem status_eq_halted : s.status = .halted ↔ s.fault = none ∧ s.running = false := by
  unfold State.status
  cases s.fault <;> cases s.running <;> simp

/-- A core is Faulted with exactly the fault it holds. -/
theorem status_eq_faulted (r : FaultRecord) : s.status = .faulted r ↔ s.fault = some r := by
  unfold State.status
  cases s.fault <;> cases s.running <;> simp

end Sys2Proof.Machine
end

