-- ==== Sys2Proof/Laws/Ops.lean ====
section
/-! SUPPORT. One lemma per shared operation that says everything the operation can answer; later proofs cite it and do not
unfold the operation. -/

namespace Sys2Proof.Machine

/-! ### Committing -/

@[simp] theorem commit_ok (s t : State) : s.commit (.ok t) = .next t := rfl

@[simp] theorem commit_pure (s t : State) : s.commit (pure t) = .next t := rfl

@[simp] theorem commit_error (s : State) (e : Trap) : s.commit (.error e) = .next (s.raise e) := rfl

/-- An instruction that has gone on: it answers a next state, and that is the computed one or the state with the fault. -/
theorem commit_cases (s : State) (a : Attempt State) :
    (∃ t, a = .ok t ∧ s.commit a = .next t) ∨ (∃ e, a = .error e ∧ s.commit a = .next (s.raise e)) := by
  cases a with
  | ok t => exact .inl ⟨t, rfl, rfl⟩
  | error e => exact .inr ⟨e, rfl, rfl⟩

/-! ### Sequencing attempts -/

@[simp] theorem ok_bind {α β : Type} (a : α) (f : α → Attempt β) : ((Except.ok a : Attempt α) >>= f) = f a := rfl

@[simp] theorem error_bind {α β : Type} (e : Trap) (f : α → Attempt β) :
    ((Except.error e : Attempt α) >>= f) = .error e := rfl

@[simp] theorem map_ok {α β : Type} (a : α) (f : α → β) : f <$> (Except.ok a : Attempt α) = .ok (f a) := rfl

@[simp] theorem map_error {α β : Type} (e : Trap) (f : α → β) : f <$> (Except.error e : Attempt α) = .error e := rfl

/-- If a sequence answers, each of its parts did. -/
theorem bind_eq_ok {α β : Type} {x : Attempt α} {f : α → Attempt β} {b : β} :
    (x >>= f) = .ok b ↔ ∃ a, x = .ok a ∧ f a = .ok b := by
  cases x <;> simp

/-! ### Operands -/

@[simp] theorem regOperand_byte (r : Reg) : regOperand r.byte = .ok r := by
  revert r; decide

/-- A register operand byte names a register, or raises `InvalidRegister` (30_encoding.md R62). -/
theorem regOperand_cases (b : Byte) :
    (∃ r : Reg, b = r.byte) ∨ (8 ≤ b.toNat ∧ regOperand b = .error ⟨.invalidRegister, b.toNat⟩) := by
  by_cases h : b.toNat < 8
  · refine .inl ⟨⟨b.toNat, h⟩, ?_⟩
    apply BitVec.eq_of_toNat_eq
    simp [Reg.byte]
  · exact .inr ⟨by omega, by simp [regOperand, h]⟩

/-- The byte of a register is its number. -/
@[simp] theorem toNat_byte (r : Reg) : r.byte.toNat = r.val := by
  revert r; decide

/-- A register's byte names a register. -/
@[simp] theorem namesRegister_byte (r : Reg) : namesRegister r.byte = true := by
  revert r; decide

/-- A byte names no register exactly when it is 8 or more. -/
theorem namesRegister_eq_false (b : Byte) : namesRegister b = false ↔ 8 ≤ b.toNat := by
  simp [namesRegister]; omega

/-- A byte that names no register raises `InvalidRegister`. -/
theorem regOperand_of_ge {b : Byte} (h : 8 ≤ b.toNat) : regOperand b = .error ⟨.invalidRegister, b.toNat⟩ := by
  simp [regOperand, Nat.not_lt.2 h]

/-! ### The bus -/

theorem memRead_of_lt {s : State} {a : Nat} (h : a < s.cfg.memSize) : s.memRead a = .ok (Memory.peek s.mem a) :=
  if_pos h

theorem memRead_of_ge {s : State} {a : Nat} (h : s.cfg.memSize ≤ a) : s.memRead a = .error ⟨.outOfBounds, a⟩ :=
  if_neg (Nat.not_lt.2 h)

theorem memWrite_of_lt {s : State} {a : Nat} (h : a < s.cfg.memSize) (v : Byte) :
    s.memWrite a v = .ok (s.setCell a v) := if_pos h

theorem memWrite_of_ge {s : State} {a : Nat} (h : s.cfg.memSize ≤ a) (v : Byte) :
    s.memWrite a v = .error ⟨.outOfBounds, a⟩ := if_neg (Nat.not_lt.2 h)

theorem push_of_lt {s : State} (h : s.pushAddress < s.cfg.memSize) (v : State → Byte) :
    s.push v = .ok (s.decSp.setCell s.pushAddress (v s.decSp)) := memWrite_of_lt (s := s.decSp) h _

theorem push_of_ge {s : State} (h : s.cfg.memSize ≤ s.pushAddress) (v : State → Byte) :
    s.push v = .error ⟨.outOfBounds, s.pushAddress⟩ := memWrite_of_ge (s := s.decSp) h _

theorem top_of_lt {s : State} (h : s.sp.toNat < s.cfg.memSize) : s.top = .ok (Memory.peek s.mem s.sp.toNat) :=
  memRead_of_lt h

theorem top_of_ge {s : State} (h : s.cfg.memSize ≤ s.sp.toNat) : s.top = .error ⟨.outOfBounds, s.sp.toNat⟩ :=
  memRead_of_ge h

/-- The address a push writes to is SP less one, modulo 256. -/
theorem pushAddress_eq (s : State) : s.pushAddress = (s.sp.toNat + 255) % 256 := by
  simp [State.pushAddress, BitVec.toNat_sub, Nat.add_comm]

/-- A read answers the cell, or raises `OutOfBounds` of the address (20_memory.md R42). -/
theorem memRead_cases (s : State) (a : Nat) :
    (a < s.cfg.memSize ∧ s.memRead a = .ok (Memory.peek s.mem a)) ∨
    (s.cfg.memSize ≤ a ∧ s.memRead a = .error ⟨.outOfBounds, a⟩) :=
  (Nat.lt_or_ge a s.cfg.memSize).imp (fun h => ⟨h, memRead_of_lt h⟩) fun h => ⟨h, memRead_of_ge h⟩

/-- A write sets the cell, or raises `OutOfBounds` of the address (20_memory.md R43). -/
theorem memWrite_cases (s : State) (a : Nat) (v : Byte) :
    (a < s.cfg.memSize ∧ s.memWrite a v = .ok (s.setCell a v)) ∨
    (s.cfg.memSize ≤ a ∧ s.memWrite a v = .error ⟨.outOfBounds, a⟩) :=
  (Nat.lt_or_ge a s.cfg.memSize).imp (fun h => ⟨h, memWrite_of_lt h v⟩) fun h => ⟨h, memWrite_of_ge h v⟩

/-- A push moves SP and writes one cell, or raises `OutOfBounds` of the moved SP. -/
theorem push_cases (s : State) (v : State → Byte) :
    (s.pushAddress < s.cfg.memSize ∧
      s.push v = .ok (s.decSp.setCell s.pushAddress (v s.decSp))) ∨
    (s.cfg.memSize ≤ s.pushAddress ∧ s.push v = .error ⟨.outOfBounds, s.pushAddress⟩) :=
  memWrite_cases s.decSp s.pushAddress (v s.decSp)

/-! ### Shapes -/

/-- A binary operation on two registers. -/
@[simp] theorem binary_byte (s : State) (f : Byte → Byte → Attempt Byte) (a b : Reg) :
    s.binary f a.byte b.byte = (fun v => (s.setReg a v).advance 3) <$> f (s.reg a) (s.reg b) := by
  unfold State.binary
  simp only [regOperand_byte, ok_bind]
  cases f (s.reg a) (s.reg b) <;> rfl

/-- A unary operation on a register. -/
@[simp] theorem unary_byte (s : State) (f : Byte → Byte) (a : Reg) :
    s.unary f a.byte = .ok ((s.setReg a (f (s.reg a))).advance 2) := by
  simp [State.unary, pure, Except.pure]

/-- Printing a register. -/
@[simp] theorem print_byte (s : State) (e : Byte → OutputEvent) (a : Reg) :
    s.print e a.byte = .ok ((s.emit (e (s.reg a))).advance 2) := by
  simp [State.print, pure, Except.pure]

/-- A conditional jump to a register. -/
@[simp] theorem jumpIf_byte (s : State) (c : Byte → Bool) (a : Reg) :
    s.jumpIf c a.byte = .ok (if c s.fl then s.jump (s.reg a) else s.advance 2) := by
  simp [State.jumpIf, pure, Except.pure]

end Sys2Proof.Machine
end

