-- ==== Sys2Proof/Laws/Exec.lean ====
section
/-! SUPPORT. What an instruction can do, said once: it completes with its own effect, or it raises. Every later proof about
`exec` splits on `exec_cases` or `exec_next_cases` and does not unfold a meaning. -/

namespace Sys2Proof.Machine

/-- `Completes i s t`: instruction `i`, whose register operands name registers, takes `s` to `t` by its own effect. -/
inductive Completes : Instr → State → State → Prop
  | hlt (s : State) : Completes .hlt s s.halt
  | nop (s : State) : Completes .nop s (s.advance 1)
  | ldi (s : State) (d : Reg) (v : Byte) : Completes (.ldi d.byte v) s ((s.setReg d v).advance 3)
  | ld (s : State) (a b : Reg) (h : s.address b < s.cfg.memSize) :
      Completes (.ld a.byte b.byte) s ((s.setReg a (Memory.peek s.mem (s.address b))).advance 3)
  | st (s : State) (a b : Reg) (h : s.address a < s.cfg.memSize) :
      Completes (.st a.byte b.byte) s ((s.setCell (s.address a) (s.reg b)).advance 3)
  | push (s : State) (a : Reg) (h : s.pushAddress < s.cfg.memSize) :
      Completes (.push a.byte) s ((s.decSp.setCell s.pushAddress (s.decSp.reg a)).advance 2)
  | pop (s : State) (d : Reg) (h : s.sp.toNat < s.cfg.memSize) :
      Completes (.pop d.byte) s ((s.setReg d (Memory.peek s.mem s.sp.toNat)).incSp.advance 2)
  | prn (s : State) (a : Reg) : Completes (.prn a.byte) s ((s.emit (.dec (s.reg a))).advance 2)
  | pra (s : State) (a : Reg) : Completes (.pra a.byte) s ((s.emit (.char (s.reg a))).advance 2)
  | add (s : State) (a b : Reg) :
      Completes (.add a.byte b.byte) s ((s.setReg a (aluAdd (s.reg a) (s.reg b))).advance 3)
  | sub (s : State) (a b : Reg) :
      Completes (.sub a.byte b.byte) s ((s.setReg a (aluSub (s.reg a) (s.reg b))).advance 3)
  | mul (s : State) (a b : Reg) :
      Completes (.mul a.byte b.byte) s ((s.setReg a (aluMul (s.reg a) (s.reg b))).advance 3)
  | and (s : State) (a b : Reg) :
      Completes (.and a.byte b.byte) s ((s.setReg a (aluAnd (s.reg a) (s.reg b))).advance 3)
  | or (s : State) (a b : Reg) :
      Completes (.or a.byte b.byte) s ((s.setReg a (aluOr (s.reg a) (s.reg b))).advance 3)
  | xor (s : State) (a b : Reg) :
      Completes (.xor a.byte b.byte) s ((s.setReg a (aluXor (s.reg a) (s.reg b))).advance 3)
  | shl (s : State) (a b : Reg) :
      Completes (.shl a.byte b.byte) s ((s.setReg a (aluShl (s.reg a) (s.reg b))).advance 3)
  | shr (s : State) (a b : Reg) :
      Completes (.shr a.byte b.byte) s ((s.setReg a (aluShr (s.reg a) (s.reg b))).advance 3)
  | div (s : State) (a b : Reg) (v : Byte) (h : aluDiv s.pc (s.reg a) (s.reg b) = .ok v) :
      Completes (.div a.byte b.byte) s ((s.setReg a v).advance 3)
  | mod (s : State) (a b : Reg) (v : Byte) (h : aluMod s.pc (s.reg a) (s.reg b) = .ok v) :
      Completes (.mod a.byte b.byte) s ((s.setReg a v).advance 3)
  | cmp (s : State) (a b : Reg) :
      Completes (.cmp a.byte b.byte) s ((s.setFl (compareFlags (s.reg a) (s.reg b))).advance 3)
  | inc (s : State) (a : Reg) : Completes (.inc a.byte) s ((s.setReg a (aluInc (s.reg a))).advance 2)
  | dec (s : State) (a : Reg) : Completes (.dec a.byte) s ((s.setReg a (aluDec (s.reg a))).advance 2)
  | not (s : State) (a : Reg) : Completes (.not a.byte) s ((s.setReg a (aluNot (s.reg a))).advance 2)
  | call (s : State) (a : Reg) (hr : s.pc + 2 ≤ 255) (h : s.pushAddress < s.cfg.memSize) :
      Completes (.call a.byte) s ((s.decSp.setCell s.pushAddress (narrow (s.pc + 2))).jump (s.decSp.reg a))
  | ret (s : State) (h : s.sp.toNat < s.cfg.memSize) :
      Completes .ret s (s.incSp.jump (Memory.peek s.mem s.sp.toNat))
  | jmp (s : State) (a : Reg) : Completes (.jmp a.byte) s (s.jump (s.reg a))
  | jeq (s : State) (a : Reg) :
      Completes (.jeq a.byte) s (if condEq s.fl then s.jump (s.reg a) else s.advance 2)
  | jne (s : State) (a : Reg) :
      Completes (.jne a.byte) s (if condNe s.fl then s.jump (s.reg a) else s.advance 2)
  | jgt (s : State) (a : Reg) :
      Completes (.jgt a.byte) s (if condGt s.fl then s.jump (s.reg a) else s.advance 2)
  | jlt (s : State) (a : Reg) :
      Completes (.jlt a.byte) s (if condLt s.fl then s.jump (s.reg a) else s.advance 2)
  | jle (s : State) (a : Reg) :
      Completes (.jle a.byte) s (if condLe s.fl then s.jump (s.reg a) else s.advance 2)
  | jge (s : State) (a : Reg) :
      Completes (.jge a.byte) s (if condGe s.fl then s.jump (s.reg a) else s.advance 2)
  | int (s : State) (b : Byte) : Completes (.int b) s (s.advance 2)
  | iret (s : State) : Completes .iret s (s.advance 1)

/-- `Raises i s e`: instruction `i` raises `e` in state `s` (60_exceptions.md R207, items 5 and 6). -/
inductive Raises : Instr → State → Trap → Prop
  | invalid (i : Instr) (s : State) (r : Byte) (h : i.firstInvalid = some r) : Raises i s ⟨.invalidRegister, r.toNat⟩
  | ld (s : State) (a b : Reg) (h : s.cfg.memSize ≤ s.address b) :
      Raises (.ld a.byte b.byte) s ⟨.outOfBounds, s.address b⟩
  | st (s : State) (a b : Reg) (h : s.cfg.memSize ≤ s.address a) :
      Raises (.st a.byte b.byte) s ⟨.outOfBounds, s.address a⟩
  | push (s : State) (a : Reg) (h : s.cfg.memSize ≤ s.pushAddress) :
      Raises (.push a.byte) s ⟨.outOfBounds, s.pushAddress⟩
  | pop (s : State) (d : Reg) (h : s.cfg.memSize ≤ s.sp.toNat) : Raises (.pop d.byte) s ⟨.outOfBounds, s.sp.toNat⟩
  | div (s : State) (a b : Reg) (h : (s.reg b).toNat = 0) : Raises (.div a.byte b.byte) s ⟨.divisionByZero, s.pc⟩
  | mod (s : State) (a b : Reg) (h : (s.reg b).toNat = 0) : Raises (.mod a.byte b.byte) s ⟨.divisionByZero, s.pc⟩
  | callReturn (s : State) (a : Reg) (h : 255 < s.pc + 2) : Raises (.call a.byte) s ⟨.outOfBounds, s.pc + 2⟩
  | call (s : State) (a : Reg) (hr : s.pc + 2 ≤ 255) (h : s.cfg.memSize ≤ s.pushAddress) :
      Raises (.call a.byte) s ⟨.outOfBounds, s.pushAddress⟩
  | ret (s : State) (h : s.cfg.memSize ≤ s.sp.toNat) : Raises .ret s ⟨.outOfBounds, s.sp.toNat⟩

/-- What one instruction can do in a state: complete, or raise. -/
def Answers (i : Instr) (s : State) : Prop :=
  (∃ t, exec i s = .next t ∧ Completes i s t) ∨ (∃ e, exec i s = .next (s.raise e) ∧ Raises i s e)

/-! ### Instructions with an invalid register operand -/

/-- The first invalid byte of one. -/
theorem find_one {a r : Byte} (h : [a].find? (fun r => !namesRegister r) = some r) : a = r ∧ 8 ≤ r.toNat := by
  by_cases ha : namesRegister a = true <;> simp [ha] at h
  exact ⟨h, (namesRegister_eq_false r).1 (by simpa [h] using ha)⟩

/-- The first invalid byte of two: the first, or the second after a register. -/
theorem find_two {a b r : Byte} (h : [a, b].find? (fun r => !namesRegister r) = some r) :
    (a = r ∧ 8 ≤ r.toNat) ∨ ∃ q : Reg, a = q.byte ∧ b = r ∧ 8 ≤ r.toNat := by
  rcases regOperand_cases a with ⟨q, rfl⟩ | ⟨ha, _⟩
  · rw [List.find?_cons_of_neg (by simp)] at h
    exact .inr ⟨q, rfl, find_one h⟩
  · rw [List.find?_cons_of_pos (by simp [(namesRegister_eq_false a).2 ha])] at h
    exact .inl ⟨Option.some.inj h, Option.some.inj h ▸ ha⟩

/-- An invalid byte as the only operand of a shape. -/
theorem one_invalid {r : Byte} (h : 8 ≤ r.toNat) (f : Reg → Attempt State) :
    (regOperand r >>= f) = .error ⟨.invalidRegister, r.toNat⟩ := by rw [regOperand_of_ge h, error_bind]

/-- An invalid byte as the second operand of a shape. -/
theorem two_invalid {r : Byte} (q : Reg) (h : 8 ≤ r.toNat) (f : Reg → Reg → Attempt State) :
    (regOperand q.byte >>= fun a => regOperand r >>= f a) = .error ⟨.invalidRegister, r.toNat⟩ := by
  rw [regOperand_byte, ok_bind, one_invalid h]

/-- An instruction with an invalid register operand raises `InvalidRegister` of the first such byte. -/
theorem exec_invalid {i : Instr} {s : State} {r : Byte} (h : i.firstInvalid = some r) :
    exec i s = .next (s.raise ⟨.invalidRegister, r.toNat⟩) := by
  cases i with
  | hlt => cases h
  | nop => cases h
  | ldi rd imm8 => 
    obtain ⟨rfl, hr⟩ := find_one h
    exact congrArg s.commit (one_invalid hr _)
  | ld ra rb => 
    rcases find_two h with ⟨rfl, hr⟩ | ⟨q, rfl, rfl, hr⟩
    · exact congrArg s.commit (one_invalid hr _)
    · exact congrArg s.commit (two_invalid q hr _)
  | st ra rb => 
    rcases find_two h with ⟨rfl, hr⟩ | ⟨q, rfl, rfl, hr⟩
    · exact congrArg s.commit (one_invalid hr _)
    · exact congrArg s.commit (two_invalid q hr _)
  | push ra => 
    obtain ⟨rfl, hr⟩ := find_one h
    exact congrArg s.commit (one_invalid hr _)
  | pop rd => 
    obtain ⟨rfl, hr⟩ := find_one h
    exact congrArg s.commit (one_invalid hr _)
  | prn ra => 
    obtain ⟨rfl, hr⟩ := find_one h
    exact congrArg s.commit (one_invalid hr _)
  | pra ra => 
    obtain ⟨rfl, hr⟩ := find_one h
    exact congrArg s.commit (one_invalid hr _)
  | add ra rb => 
    rcases find_two h with ⟨rfl, hr⟩ | ⟨q, rfl, rfl, hr⟩
    · exact congrArg s.commit (one_invalid hr _)
    · exact congrArg s.commit (two_invalid q hr _)
  | sub ra rb => 
    rcases find_two h with ⟨rfl, hr⟩ | ⟨q, rfl, rfl, hr⟩
    · exact congrArg s.commit (one_invalid hr _)
    · exact congrArg s.commit (two_invalid q hr _)
  | mul ra rb => 
    rcases find_two h with ⟨rfl, hr⟩ | ⟨q, rfl, rfl, hr⟩
    · exact congrArg s.commit (one_invalid hr _)
    · exact congrArg s.commit (two_invalid q hr _)
  | div ra rb => 
    rcases find_two h with ⟨rfl, hr⟩ | ⟨q, rfl, rfl, hr⟩
    · exact congrArg s.commit (one_invalid hr _)
    · exact congrArg s.commit (two_invalid q hr _)
  | mod ra rb => 
    rcases find_two h with ⟨rfl, hr⟩ | ⟨q, rfl, rfl, hr⟩
    · exact congrArg s.commit (one_invalid hr _)
    · exact congrArg s.commit (two_invalid q hr _)
  | and ra rb => 
    rcases find_two h with ⟨rfl, hr⟩ | ⟨q, rfl, rfl, hr⟩
    · exact congrArg s.commit (one_invalid hr _)
    · exact congrArg s.commit (two_invalid q hr _)
  | or ra rb => 
    rcases find_two h with ⟨rfl, hr⟩ | ⟨q, rfl, rfl, hr⟩
    · exact congrArg s.commit (one_invalid hr _)
    · exact congrArg s.commit (two_invalid q hr _)
  | xor ra rb => 
    rcases find_two h with ⟨rfl, hr⟩ | ⟨q, rfl, rfl, hr⟩
    · exact congrArg s.commit (one_invalid hr _)
    · exact congrArg s.commit (two_invalid q hr _)
  | shl ra rb => 
    rcases find_two h with ⟨rfl, hr⟩ | ⟨q, rfl, rfl, hr⟩
    · exact congrArg s.commit (one_invalid hr _)
    · exact congrArg s.commit (two_invalid q hr _)
  | shr ra rb => 
    rcases find_two h with ⟨rfl, hr⟩ | ⟨q, rfl, rfl, hr⟩
    · exact congrArg s.commit (one_invalid hr _)
    · exact congrArg s.commit (two_invalid q hr _)
  | cmp ra rb => 
    rcases find_two h with ⟨rfl, hr⟩ | ⟨q, rfl, rfl, hr⟩
    · exact congrArg s.commit (one_invalid hr _)
    · exact congrArg s.commit (two_invalid q hr _)
  | inc ra => 
    obtain ⟨rfl, hr⟩ := find_one h
    exact congrArg s.commit (one_invalid hr _)
  | dec ra => 
    obtain ⟨rfl, hr⟩ := find_one h
    exact congrArg s.commit (one_invalid hr _)
  | not ra => 
    obtain ⟨rfl, hr⟩ := find_one h
    exact congrArg s.commit (one_invalid hr _)
  | call ra => 
    obtain ⟨rfl, hr⟩ := find_one h
    exact congrArg s.commit (one_invalid hr _)
  | ret => cases h
  | jmp ra => 
    obtain ⟨rfl, hr⟩ := find_one h
    exact congrArg s.commit (one_invalid hr _)
  | jeq ra => 
    obtain ⟨rfl, hr⟩ := find_one h
    exact congrArg s.commit (one_invalid hr _)
  | jne ra => 
    obtain ⟨rfl, hr⟩ := find_one h
    exact congrArg s.commit (one_invalid hr _)
  | jgt ra => 
    obtain ⟨rfl, hr⟩ := find_one h
    exact congrArg s.commit (one_invalid hr _)
  | jlt ra => 
    obtain ⟨rfl, hr⟩ := find_one h
    exact congrArg s.commit (one_invalid hr _)
  | jle ra => 
    obtain ⟨rfl, hr⟩ := find_one h
    exact congrArg s.commit (one_invalid hr _)
  | jge ra => 
    obtain ⟨rfl, hr⟩ := find_one h
    exact congrArg s.commit (one_invalid hr _)
  | int b => cases h
  | iret => cases h

/-- To answer for every operand byte it is enough to answer for every register (one register operand). -/
theorem answers_one (f : Byte → Instr) (s : State) (hf : ∀ b, (f b).regOperands = [b])
    (h : ∀ a : Reg, Answers (f a.byte) s) (b : Byte) : Answers (f b) s := by
  rcases regOperand_cases b with ⟨a, rfl⟩ | ⟨hb, _⟩
  · exact h a
  · have hi : (f b).firstInvalid = some b := by simp [Instr.firstInvalid, hf, (namesRegister_eq_false b).2 hb]
    exact .inr ⟨_, exec_invalid hi, .invalid _ _ _ hi⟩

/-- To answer for all operand bytes it is enough to answer for all registers (two register operands). -/
theorem answers_two (f : Byte → Byte → Instr) (s : State) (hf : ∀ a b, (f a b).regOperands = [a, b])
    (h : ∀ a b : Reg, Answers (f a.byte b.byte) s) (a b : Byte) : Answers (f a b) s := by
  have bad {r : Byte} (hi : (f a b).firstInvalid = some r) : Answers (f a b) s :=
    .inr ⟨_, exec_invalid hi, .invalid _ _ _ hi⟩
  rcases regOperand_cases a with ⟨p, rfl⟩ | ⟨ha, _⟩
  · rcases regOperand_cases b with ⟨q, rfl⟩ | ⟨hb, _⟩
    · exact h p q
    · exact bad (r := b) (by simp [Instr.firstInvalid, hf, (namesRegister_eq_false b).2 hb])
  · exact bad (r := a) (by simp [Instr.firstInvalid, hf, (namesRegister_eq_false a).2 ha])

/-! ### The inversion -/

/-- An attempt that answers is a completion. -/
theorem answers_ok {i : Instr} {s t : State} {a : Attempt State} (he : exec i s = s.commit a) (ha : a = .ok t)
    (hc : Completes i s t) : Answers i s := .inl ⟨t, by rw [he, ha]; rfl, hc⟩

/-- An attempt that raises is a fault. -/
theorem answers_error {i : Instr} {s : State} {e : Trap} {a : Attempt State} (he : exec i s = s.commit a)
    (ha : a = .error e) (hr : Raises i s e) : Answers i s := .inr ⟨e, by rw [he, ha]; rfl, hr⟩

/-- EVERYTHING AN INSTRUCTION CAN DO: complete with its own effect, or raise for one of the listed reasons. -/
theorem exec_cases (i : Instr) (s : State) : Answers i s := by
  cases i with
  | hlt => exact answers_ok rfl rfl (.hlt s)
  | nop => exact answers_ok rfl rfl (.nop s)
  | ldi rd imm8 =>
    exact answers_one (.ldi · imm8) s (fun _ => rfl) (fun d => answers_ok rfl (by simp; rfl) (.ldi s d imm8)) rd
  | ld ra rb =>
    refine answers_two .ld s (fun _ _ => rfl) (fun a b => ?_) ra rb
    rcases Nat.lt_or_ge (s.address b) s.cfg.memSize with h | h
    · exact answers_ok rfl (by simp [memRead_of_lt h]) (.ld s a b h)
    · exact answers_error rfl (by simp [memRead_of_ge h]) (.ld s a b h)
  | st ra rb =>
    refine answers_two .st s (fun _ _ => rfl) (fun a b => ?_) ra rb
    rcases Nat.lt_or_ge (s.address a) s.cfg.memSize with h | h
    · exact answers_ok rfl (by simp [memWrite_of_lt h]) (.st s a b h)
    · exact answers_error rfl (by simp [memWrite_of_ge h]) (.st s a b h)
  | push ra =>
    refine answers_one .push s (fun _ => rfl) (fun a => ?_) ra
    rcases Nat.lt_or_ge s.pushAddress s.cfg.memSize with h | h
    · exact answers_ok rfl (by simp [push_of_lt h]) (.push s a h)
    · exact answers_error rfl (by simp [push_of_ge h]) (.push s a h)
  | pop ra =>
    refine answers_one .pop s (fun _ => rfl) (fun a => ?_) ra
    rcases Nat.lt_or_ge s.sp.toNat s.cfg.memSize with h | h
    · exact answers_ok rfl (by simp [top_of_lt h]) (.pop s a h)
    · exact answers_error rfl (by simp [top_of_ge h]) (.pop s a h)
  | prn ra => exact answers_one .prn s (fun _ => rfl) (fun a => answers_ok rfl (print_byte s _ a) (.prn s a)) ra
  | pra ra => exact answers_one .pra s (fun _ => rfl) (fun a => answers_ok rfl (print_byte s _ a) (.pra s a)) ra
  | add ra rb =>
    exact answers_two .add s (fun _ _ => rfl) (fun a b => answers_ok rfl (binary_byte s _ a b) (.add s a b)) ra rb
  | sub ra rb =>
    exact answers_two .sub s (fun _ _ => rfl) (fun a b => answers_ok rfl (binary_byte s _ a b) (.sub s a b)) ra rb
  | mul ra rb =>
    exact answers_two .mul s (fun _ _ => rfl) (fun a b => answers_ok rfl (binary_byte s _ a b) (.mul s a b)) ra rb
  | div ra rb =>
    refine answers_two .div s (fun _ _ => rfl) (fun a b => ?_) ra rb
    by_cases h : (s.reg b).toNat = 0
    · exact answers_error rfl ((binary_byte s _ a b).trans (by rw [aluDiv, if_pos h]; rfl)) (.div s a b h)
    · exact answers_ok rfl ((binary_byte s _ a b).trans (by rw [aluDiv, if_neg h]; rfl)) (.div s a b _ (if_neg h))
  | mod ra rb =>
    refine answers_two .mod s (fun _ _ => rfl) (fun a b => ?_) ra rb
    by_cases h : (s.reg b).toNat = 0
    · exact answers_error rfl ((binary_byte s _ a b).trans (by rw [aluMod, if_pos h]; rfl)) (.mod s a b h)
    · exact answers_ok rfl ((binary_byte s _ a b).trans (by rw [aluMod, if_neg h]; rfl)) (.mod s a b _ (if_neg h))
  | and ra rb =>
    exact answers_two .and s (fun _ _ => rfl) (fun a b => answers_ok rfl (binary_byte s _ a b) (.and s a b)) ra rb
  | or ra rb =>
    exact answers_two .or s (fun _ _ => rfl) (fun a b => answers_ok rfl (binary_byte s _ a b) (.or s a b)) ra rb
  | xor ra rb =>
    exact answers_two .xor s (fun _ _ => rfl) (fun a b => answers_ok rfl (binary_byte s _ a b) (.xor s a b)) ra rb
  | shl ra rb =>
    exact answers_two .shl s (fun _ _ => rfl) (fun a b => answers_ok rfl (binary_byte s _ a b) (.shl s a b)) ra rb
  | shr ra rb =>
    exact answers_two .shr s (fun _ _ => rfl) (fun a b => answers_ok rfl (binary_byte s _ a b) (.shr s a b)) ra rb
  | cmp ra rb =>
    exact answers_two .cmp s (fun _ _ => rfl) (fun a b => answers_ok rfl (by simp) (.cmp s a b)) ra rb
  | inc ra => exact answers_one .inc s (fun _ => rfl) (fun a => answers_ok rfl (unary_byte s _ a) (.inc s a)) ra
  | dec ra => exact answers_one .dec s (fun _ => rfl) (fun a => answers_ok rfl (unary_byte s _ a) (.dec s a)) ra
  | not ra => exact answers_one .not s (fun _ => rfl) (fun a => answers_ok rfl (unary_byte s _ a) (.not s a)) ra
  | call ra =>
    refine answers_one .call s (fun _ => rfl) (fun a => ?_) ra
    by_cases hr : s.pc + 2 ≤ 255
    · rcases Nat.lt_or_ge s.pushAddress s.cfg.memSize with h | h
      · exact answers_ok rfl (by simp [State.returnAddress, Nat.not_lt.2 hr, push_of_lt h]) (.call s a hr h)
      · exact answers_error rfl (by simp [State.returnAddress, Nat.not_lt.2 hr, push_of_ge h]) (.call s a hr h)
    · exact answers_error rfl (by simp [State.returnAddress, Nat.not_le.1 hr]) (.callReturn s a (Nat.not_le.1 hr))
  | ret =>
    rcases Nat.lt_or_ge s.sp.toNat s.cfg.memSize with h | h
    · exact answers_ok rfl (by simp [top_of_lt h]) (.ret s h)
    · exact answers_error rfl (by simp [top_of_ge h]) (.ret s h)
  | jmp ra => exact answers_one .jmp s (fun _ => rfl) (fun a => answers_ok rfl (by simp) (.jmp s a)) ra
  | jeq ra => exact answers_one .jeq s (fun _ => rfl) (fun a => answers_ok rfl (jumpIf_byte s _ a) (.jeq s a)) ra
  | jne ra => exact answers_one .jne s (fun _ => rfl) (fun a => answers_ok rfl (jumpIf_byte s _ a) (.jne s a)) ra
  | jgt ra => exact answers_one .jgt s (fun _ => rfl) (fun a => answers_ok rfl (jumpIf_byte s _ a) (.jgt s a)) ra
  | jlt ra => exact answers_one .jlt s (fun _ => rfl) (fun a => answers_ok rfl (jumpIf_byte s _ a) (.jlt s a)) ra
  | jle ra => exact answers_one .jle s (fun _ => rfl) (fun a => answers_ok rfl (jumpIf_byte s _ a) (.jle s a)) ra
  | jge ra => exact answers_one .jge s (fun _ => rfl) (fun a => answers_ok rfl (jumpIf_byte s _ a) (.jge s a)) ra
  | int b => exact answers_ok rfl rfl (.int s b)
  | iret => exact answers_ok rfl rfl (.iret s)

/-- The same, of a next state at hand. -/
theorem exec_next_cases {i : Instr} {s t : State} (h : exec i s = .next t) :
    Completes i s t ∨ ∃ e, t = s.raise e ∧ Raises i s e := by
  rcases exec_cases i s with ⟨u, hu, hc⟩ | ⟨e, he, hr⟩
  · rw [hu] at h; cases h; exact .inl hc
  · rw [he] at h; cases h; exact .inr ⟨e, rfl, hr⟩

/-! ### The converse: each listed reason is one the instruction answers by -/

/-- The byte of a register determines it. -/
theorem byte_inj {p q : Reg} (h : p.byte = q.byte) : p = q := by
  have := congrArg BitVec.toNat h
  rw [toNat_byte, toNat_byte] at this
  exact Fin.ext this

/-- A completion is what the instruction answers. -/
theorem exec_of_completes {i : Instr} {s t : State} (h : Completes i s t) : exec i s = .next t := by
  cases h with
  | hlt => rfl
  | nop => rfl
  | ldi _ d v => simp [exec, execLdi, immOperand]
  | ld _ a b h => simp [exec, execLd, memRead_of_lt h]
  | st _ a b h => simp [exec, execSt, memWrite_of_lt h]
  | push _ a h => simp [exec, execPush, push_of_lt h]
  | pop _ d h => simp [exec, execPop, top_of_lt h]
  | prn _ a => simp [exec, execPrn]
  | pra _ a => simp [exec, execPra]
  | add _ a b => simp [exec, execAdd]
  | sub _ a b => simp [exec, execSub]
  | mul _ a b => simp [exec, execMul]
  | and _ a b => simp [exec, execAnd]
  | or _ a b => simp [exec, execOr]
  | xor _ a b => simp [exec, execXor]
  | shl _ a b => simp [exec, execShl]
  | shr _ a b => simp [exec, execShr]
  | div _ a b v h => simp [exec, execDiv, h]
  | mod _ a b v h => simp [exec, execMod, h]
  | cmp _ a b => simp [exec, execCmp]
  | inc _ a => simp [exec, execInc]
  | dec _ a => simp [exec, execDec]
  | not _ a => simp [exec, execNot]
  | call _ a hr h => simp [exec, execCall, State.returnAddress, Nat.not_lt.2 hr, push_of_lt h]
  | ret _ h => simp [exec, execRet, top_of_lt h]
  | jmp _ a => simp [exec, execJmp]
  | jeq _ a => simp [exec, execJeq]
  | jne _ a => simp [exec, execJne]
  | jgt _ a => simp [exec, execJgt]
  | jlt _ a => simp [exec, execJlt]
  | jle _ a => simp [exec, execJle]
  | jge _ a => simp [exec, execJge]
  | int _ b => rfl
  | iret => rfl

/-- A listed reason to raise is one the instruction raises for. -/
theorem exec_of_raises {i : Instr} {s : State} {e : Trap} (h : Raises i s e) : exec i s = .next (s.raise e) := by
  cases h with
  | invalid _ _ r h => exact exec_invalid h
  | ld _ a b h => simp [exec, execLd, memRead_of_ge h]
  | st _ a b h => simp [exec, execSt, memWrite_of_ge h]
  | push _ a h => simp [exec, execPush, push_of_ge h]
  | pop _ d h => simp [exec, execPop, top_of_ge h]
  | div _ a b h => simp [exec, execDiv, aluDiv, h]
  | mod _ a b h => simp [exec, execMod, aluMod, h]
  | callReturn _ a h => simp [exec, execCall, State.returnAddress, h]
  | call _ a hr h => simp [exec, execCall, State.returnAddress, Nat.not_lt.2 hr, push_of_ge h]
  | ret _ h => simp [exec, execRet, top_of_ge h]

end Sys2Proof.Machine
end

