-- ==== Sys2Proof/Laws/Flags.lean ====
section
/-! SUPPORT. The flags that CMP writes, and the jumps' conditions on them. -/

namespace Sys2Proof.Machine

/-- The three values of `compareFlags`, each with the comparison it stands for (44_alu.md R141). -/
theorem compareFlags_cases (a b : Byte) :
    (a.toNat = b.toNat ∧ compareFlags a b = 0x01) ∨ (b.toNat < a.toNat ∧ compareFlags a b = 0x02) ∨
      (a.toNat < b.toNat ∧ compareFlags a b = 0x04) := by
  unfold compareFlags
  split
  · exact .inl ⟨‹_›, rfl⟩
  · split
    · exact .inr (.inl ⟨‹_›, rfl⟩)
    · exact .inr (.inr ⟨by omega, rfl⟩)

/-! ### The conditions after a CMP (45_control_transfer.md R161) -/

theorem condEq_compareFlags (a b : Byte) : condEq (compareFlags a b) = decide (a.toNat = b.toNat) := by
  obtain ⟨h, e⟩ | ⟨h, e⟩ | ⟨h, e⟩ := compareFlags_cases a b <;> rw [e, Bool.eq_iff_iff, decide_eq_true_iff] <;>
    simp [condEq, flagE] <;> omega

theorem condNe_compareFlags (a b : Byte) : condNe (compareFlags a b) = decide (a.toNat ≠ b.toNat) := by
  obtain ⟨h, e⟩ | ⟨h, e⟩ | ⟨h, e⟩ := compareFlags_cases a b <;> rw [e, Bool.eq_iff_iff, decide_eq_true_iff] <;>
    simp [condNe, flagE] <;> omega

theorem condGt_compareFlags (a b : Byte) : condGt (compareFlags a b) = decide (b.toNat < a.toNat) := by
  obtain ⟨h, e⟩ | ⟨h, e⟩ | ⟨h, e⟩ := compareFlags_cases a b <;> rw [e, Bool.eq_iff_iff, decide_eq_true_iff] <;>
    simp [condGt, flagG] <;> omega

theorem condLt_compareFlags (a b : Byte) : condLt (compareFlags a b) = decide (a.toNat < b.toNat) := by
  obtain ⟨h, e⟩ | ⟨h, e⟩ | ⟨h, e⟩ := compareFlags_cases a b <;> rw [e, Bool.eq_iff_iff, decide_eq_true_iff] <;>
    simp [condLt, flagL] <;> omega

theorem condLe_compareFlags (a b : Byte) : condLe (compareFlags a b) = decide (a.toNat ≤ b.toNat) := by
  obtain ⟨h, e⟩ | ⟨h, e⟩ | ⟨h, e⟩ := compareFlags_cases a b <;> rw [e, Bool.eq_iff_iff, decide_eq_true_iff] <;>
    simp [condLe, flagL, flagE] <;> omega

theorem condGe_compareFlags (a b : Byte) : condGe (compareFlags a b) = decide (b.toNat ≤ a.toNat) := by
  obtain ⟨h, e⟩ | ⟨h, e⟩ | ⟨h, e⟩ := compareFlags_cases a b <;> rw [e, Bool.eq_iff_iff, decide_eq_true_iff] <;>
    simp [condGe, flagG, flagE] <;> omega

/-! ### The conditions before any CMP: FL is 0 (45_control_transfer.md R161) -/

@[simp] theorem condEq_zero : condEq 0 = false := by decide
@[simp] theorem condNe_zero : condNe 0 = true := by decide
@[simp] theorem condGt_zero : condGt 0 = false := by decide
@[simp] theorem condLt_zero : condLt 0 = false := by decide
@[simp] theorem condLe_zero : condLe 0 = false := by decide
@[simp] theorem condGe_zero : condGe 0 = false := by decide

end Sys2Proof.Machine
end

