-- ==== Sys2Proof/Laws/Step.lean ====
section
/-! SUPPORT. What a fetch and a step can do, said once. -/

namespace Sys2Proof.Machine

/-! ### The fetch -/

/-- The instruction a mnemonic makes has that mnemonic. -/
@[simp] theorem mnemonic_instr (mn : Mnemonic) (b1 b2 : Byte) : (mn.instr b1 b2).mnemonic = mn := by cases mn <;> rfl

/-- Every width is 1, 2 or 3. -/
theorem width_le (mn : Mnemonic) : 1 ≤ mn.width ∧ mn.width ≤ 3 := by cases mn <;> decide

/-- The prefetch answers nothing, or raises `OutOfBounds` of an address it reads. -/
theorem prefetch_cases (s : State) :
    (s.prefetch = .ok () ∧ (s.cfg.operandPrefetch = true → s.pc + 2 < s.cfg.memSize)) ∨
    (∃ a, s.cfg.memSize ≤ a ∧ s.prefetch = .error ⟨.outOfBounds, a⟩) := by
  unfold State.prefetch
  cases s.cfg.operandPrefetch
  · exact .inl ⟨rfl, fun h => by cases h⟩
  · rcases memRead_cases s (s.pc + 1) with ⟨h1, e1⟩ | ⟨h1, e1⟩
    · rcases memRead_cases s (s.pc + 2) with ⟨h2, e2⟩ | ⟨h2, e2⟩
      · exact .inl ⟨by rw [if_pos rfl, e1, e2]; rfl, fun _ => h2⟩
      · exact .inr ⟨_, h2, by rw [if_pos rfl, e1, e2]; rfl⟩
    · exact .inr ⟨_, h1, by rw [if_pos rfl, e1]; rfl⟩

/-- An operand byte is read if the instruction has it. -/
theorem operandByte_cases (s : State) (w k : Nat) :
    (∃ b, s.operandByte w k = .ok b ∧ (k < w → s.pc + k < s.cfg.memSize ∧ b = Memory.peek s.mem (s.pc + k))) ∨
    (k < w ∧ s.cfg.memSize ≤ s.pc + k ∧ s.operandByte w k = .error ⟨.outOfBounds, s.pc + k⟩) := by
  unfold State.operandByte
  split
  · rcases memRead_cases s (s.pc + k) with ⟨h, e⟩ | ⟨h, e⟩
    · exact .inl ⟨_, e, fun _ => ⟨h, rfl⟩⟩
    · exact .inr ⟨‹_›, h, e⟩
  · exact .inl ⟨0, rfl, fun h => absurd h ‹_›⟩

/-- EVERYTHING A FETCH CAN DO: answer the instruction whose bytes stand at the pc, all of them inside memory, or raise
`OutOfBounds` of an address outside memory, or `UnimplementedOpcode` of the byte at the pc. -/
theorem fetch_cases (s : State) :
    (∃ mn b1 b2, s.fetch = .ok (mn.instr b1 b2) ∧ s.cfg.opcodeMap.lookup (Memory.peek s.mem s.pc) = some mn ∧
      s.pc + mn.width ≤ s.cfg.memSize ∧ (1 < mn.width → b1 = Memory.peek s.mem (s.pc + 1)) ∧
      (2 < mn.width → b2 = Memory.peek s.mem (s.pc + 2))) ∨
    (∃ a, s.cfg.memSize ≤ a ∧ s.fetch = .error ⟨.outOfBounds, a⟩) ∨
    (s.cfg.opcodeMap.lookup (Memory.peek s.mem s.pc) = none ∧
      s.fetch = .error ⟨.unimplementedOpcode, (Memory.peek s.mem s.pc).toNat⟩) := by
  unfold State.fetch
  rcases memRead_cases s s.pc with ⟨h0, e0⟩ | ⟨h0, e0⟩
  · rw [e0, ok_bind]
    rcases prefetch_cases s with ⟨ep, _⟩ | ⟨a, ha, ep⟩
    · rw [ep, ok_bind]
      cases hl : s.cfg.opcodeMap.lookup (Memory.peek s.mem s.pc) with
      | none => exact .inr (.inr ⟨rfl, rfl⟩)
      | some mn =>
        have hw := width_le mn
        rcases operandByte_cases s mn.width 1 with ⟨b1, e1, h1⟩ | ⟨_, h1, e1⟩
        · rcases operandByte_cases s mn.width 2 with ⟨b2, e2, h2⟩ | ⟨_, h2, e2⟩
          · refine .inl ⟨mn, b1, b2, by simp only [e1, e2, ok_bind]; rfl, rfl, ?_, fun h => (h1 h).2, fun h => (h2 h).2⟩
            rcases Nat.lt_or_ge 2 mn.width with h | h
            · have := (h2 h).1; omega
            · rcases Nat.lt_or_ge 1 mn.width with h' | h'
              · have := (h1 h').1; omega
              · omega
          · exact .inr (.inl ⟨_, h2, by simp only [e1, e2, ok_bind, error_bind]⟩)
        · exact .inr (.inl ⟨_, h1, by simp only [e1, error_bind]⟩)
    · exact .inr (.inl ⟨a, ha, by rw [ep, error_bind]⟩)
  · exact .inr (.inl ⟨_, h0, by rw [e0, error_bind]⟩)

/-- Without the prefetch, or with `pc+1` and `pc+2` inside memory, the prefetch answers. -/
theorem prefetch_ok {s : State} (h : s.cfg.operandPrefetch = true → s.pc + 2 < s.cfg.memSize) : s.prefetch = .ok () := by
  obtain ⟨h, -⟩ | ⟨a, ha, he⟩ := prefetch_cases s
  · exact h
  · unfold State.prefetch at he
    split at he
    · rename_i hp
      rw [memRead_of_lt (by have := h hp; omega), memRead_of_lt (h hp)] at he
      cases he
    · cases he

/-- A known opcode: what is left of the cycle is the operand bytes. -/
theorem fetch_of_lookup_some {s : State} {mn : Mnemonic} (h0 : s.pc < s.cfg.memSize)
    (hp : s.cfg.operandPrefetch = true → s.pc + 2 < s.cfg.memSize)
    (hl : s.cfg.opcodeMap.lookup (Memory.peek s.mem s.pc) = some mn) :
    s.fetch = (do
      let b1 ← s.operandByte mn.width 1
      let b2 ← s.operandByte mn.width 2
      pure (mn.instr b1 b2)) := by
  unfold State.fetch
  rw [memRead_of_lt h0, ok_bind, prefetch_ok hp, ok_bind, hl]

/-- An unknown opcode raises `UnimplementedOpcode` before any operand byte is read. -/
theorem fetch_of_lookup_none {s : State} (h0 : s.pc < s.cfg.memSize)
    (hp : s.cfg.operandPrefetch = true → s.pc + 2 < s.cfg.memSize)
    (hl : s.cfg.opcodeMap.lookup (Memory.peek s.mem s.pc) = none) :
    s.fetch = .error ⟨.unimplementedOpcode, (Memory.peek s.mem s.pc).toNat⟩ := by
  unfold State.fetch
  rw [memRead_of_lt h0, ok_bind, prefetch_ok hp, ok_bind, hl]

/-! ### The step -/

/-- A Running core executes what it fetched. -/
theorem step_of_fetch_ok {s : State} {i : Instr} (h : s.status = .running) (hf : s.fetch = .ok i) : step s = exec i s := by
  simp only [step, h, hf]

/-- A Running core whose fetch raises takes the fault. -/
theorem step_of_fetch_error {s : State} {e : Trap} (h : s.status = .running) (hf : s.fetch = .error e) :
    step s = .next (s.raise e) := by simp only [step, h, hf]

theorem step_of_halted {s : State} (h : s.status = .halted) : step s = .fault .halted := by simp only [step, h]

theorem step_of_faulted {s : State} {r : FaultRecord} (h : s.status = .faulted r) : step s = .fault (.faulted r) := by
  simp only [step, h]

/-- EVERYTHING A STEP THAT ANSWERS CAN HAVE DONE: the core was Running, and the fetch raised, or the fetched instruction
raised, or it completed. -/
theorem step_next_cases {s t : State} (h : step s = .next t) :
    s.status = .running ∧
    ((∃ e, s.fetch = .error e ∧ t = s.raise e) ∨
      ∃ i, s.fetch = .ok i ∧ (Completes i s t ∨ ∃ e, t = s.raise e ∧ Raises i s e)) := by
  cases hs : s.status with
  | halted => rw [step_of_halted hs] at h; cases h
  | faulted r => rw [step_of_faulted hs] at h; cases h
  | running =>
    refine ⟨rfl, ?_⟩
    cases hf : s.fetch with
    | error e => rw [step_of_fetch_error hs hf] at h; cases h; exact .inl ⟨e, rfl, rfl⟩
    | ok i => rw [step_of_fetch_ok hs hf] at h; exact .inr ⟨i, rfl, exec_next_cases h⟩

/-- A core that is not Running stays as it is, however far the run is taken. -/
theorem runFor_of_stopped {s : State} (h : s.status ≠ .running) (n : Nat) : s.runFor n = s := by
  cases n with
  | zero => rfl
  | succ n =>
    cases hs : s.status with
    | running => exact absurd hs h
    | halted => simp only [State.runFor, step_of_halted hs]
    | faulted r => simp only [State.runFor, step_of_faulted hs]

/-- A Running core's step answers. -/
theorem step_of_running {s : State} (h : s.status = .running) : ∃ t, step s = .next t := by
  cases hf : s.fetch with
  | error e => exact ⟨_, step_of_fetch_error h hf⟩
  | ok i =>
    obtain ⟨t, hc⟩ | ⟨e, hr⟩ := exec_cases i s
    · exact ⟨t, (step_of_fetch_ok h hf).trans hc.1⟩
    · exact ⟨_, (step_of_fetch_ok h hf).trans hr.1⟩

/-- A run is taken in parts. -/
theorem runFor_add (n k : Nat) (s : State) : s.runFor (n + k) = (s.runFor n).runFor k := by
  induction n generalizing s with
  | zero => rw [Nat.zero_add]; rfl
  | succ n ih =>
    by_cases h : s.status = .running
    · obtain ⟨t, ht⟩ := step_of_running h
      simp only [Nat.succ_add, State.runFor, ht, ih]
    · rw [runFor_of_stopped h, runFor_of_stopped h, runFor_of_stopped h]

end Sys2Proof.Machine
end

