-- ==== Sys2Proof/Tests/Slice0.lean ====
section
/-! SUPPORT. Tests of one step or one decode, with results taken from 95_test_vectors.md (its vector is named before each)
or written out from the encoding tables of 30_encoding.md; and, for every statement that has hypotheses, a state and operands
that meet them together. -/

namespace Sys2Proof.Tests

open Sys2Proof Sys2Proof.Machine

/-! ### Helpers -/

/-- The next state of an outcome, if it has one. -/
def nextOf : Host.Outcome State Fault Refusal → Option State
  | .next t => some t
  | .fault _ => none
  | .refused _ => none

/-- Why an outcome has no next state. -/
def stopOf : Host.Outcome State Fault Refusal → Option Fault
  | .next _ => none
  | .fault f => some f
  | .refused _ => none

/-- The state with an instruction's bytes at the pc. -/
def place (s : State) (bytes : List Byte) : State := { s with mem := Memory.layDown s.cfg.memSize s.mem s.pc bytes }

/-- What is seen of the state one step after the bytes are placed at the pc. -/
def after {α : Type} (s : State) (bytes : List Byte) (see : State → α) : Option α :=
  (nextOf (step (place s bytes))).map see

/-- The reset state with another memory size. -/
def sized (n : Nat) : State := .construct { Config.reference with memSize := n }

/-- The reset state with operand prefetch (30_encoding.md R73). -/
def prefetching (n : Nat) : State := .construct { Config.reference with memSize := n, operandPrefetch := true }

/-- The reset state at another pc. -/
def atPc (pc : Nat) : State := { State.reset with pc := pc }

/-- The reset state with `x[0] = a` and `x[1] = b`, as the ALU vectors start. -/
def pair (a b : Byte) : State := (State.reset.setReg 0 a).setReg 1 b

/-- The reset state with FL set, pc 08 and `x[1] = 20`, as the jump vectors start. -/
def flagged (fl : Byte) : State := { State.reset.setReg 1 0x20 with fl := fl, pc := 8 }

/-! ### Well-formedness: each check refuses an ill-formed term -/

theorem test_wf_first_operand_8 : Instr.wf (.ld 8 0) = false := by decide
theorem test_wf_second_operand_8 : Instr.wf (.ld 0 8) = false := by decide
theorem test_wf_one_operand_255 : Instr.wf (.push 255) = false := by decide
theorem test_wf_ldi_destination_8 : Instr.wf (.ldi 8 5) = false := by decide
theorem test_wf_immediate_is_not_checked : Instr.wf (.ldi 7 255) = true := by decide
theorem test_wf_int_byte_is_not_checked : Instr.wf (.int 255) = true := by decide
theorem test_wf_first_invalid_is_reported : Instr.firstInvalid (.add 9 10) = some 9 := by decide
theorem test_wf_memory_of_no_cells : Config.sizeOk { Config.reference with memSize := 0 } = false := by decide
theorem test_wf_memory_of_257_cells : Config.sizeOk { Config.reference with memSize := 257 } = false := by decide
theorem test_wf_memory_of_one_cell : Config.wf { Config.reference with memSize := 1 } = true := by decide
theorem test_wf_shared_opcode_byte : OpcodeMap.distinct { OpcodeMap.default with nop := 0x01 } = false := by decide
theorem test_wf_config_with_shared_byte :
    Config.wf { Config.reference with opcodeMap := { OpcodeMap.default with nop := 0x01 } } = false := by decide
theorem test_wf_memory_not_rising : Memory.wf [(2, 1), (1, 1)] = false := by decide
theorem test_wf_memory_lists_a_reset_byte : Memory.wf [(2, 0)] = false := by decide
theorem test_wf_memory_repeats_an_address : Memory.wf [(2, 1), (2, 3)] = false := by decide
theorem test_wf_memory_rising : Memory.wf [(0, 1), (2, 3)] = true := by decide

/-! ### Decoding: one word per instruction, written out from 30_encoding.md R64 (the first byte is bits 7:0) -/

theorem test_decode_hlt : decodeTableWord 8 0b00000001 = some .hlt := by decide
theorem test_decode_nop : decodeTableWord 8 0b00000000 = some .nop := by decide
theorem test_decode_ldi : decodeTableWord 24 0b00001000_00000000_10000010 = some (.ldi 0 8) := by decide
theorem test_decode_ld : decodeTableWord 24 0x010083 = some (.ld 0 1) := by decide
theorem test_decode_st : decodeTableWord 24 0x010284 = some (.st 2 1) := by decide
theorem test_decode_push : decodeTableWord 16 0b00000011_01000101 = some (.push 3) := by decide
theorem test_decode_pop : decodeTableWord 16 0x0746 = some (.pop 7) := by decide
theorem test_decode_prn : decodeTableWord 16 0b00000000_01000111 = some (.prn 0) := by decide
theorem test_decode_pra : decodeTableWord 16 0x0248 = some (.pra 2) := by decide
theorem test_decode_add : decodeTableWord 24 0b00000010_00000001_10100000 = some (.add 1 2) := by decide
theorem test_decode_sub : decodeTableWord 24 0x0201A1 = some (.sub 1 2) := by decide
theorem test_decode_mul : decodeTableWord 24 0x0201A2 = some (.mul 1 2) := by decide
theorem test_decode_div : decodeTableWord 24 0x0201A3 = some (.div 1 2) := by decide
theorem test_decode_mod : decodeTableWord 24 0x0201A4 = some (.mod 1 2) := by decide
theorem test_decode_and : decodeTableWord 24 0x0201A8 = some (.and 1 2) := by decide
theorem test_decode_or : decodeTableWord 24 0x0201AA = some (.or 1 2) := by decide
theorem test_decode_xor : decodeTableWord 24 0x0201AB = some (.xor 1 2) := by decide
theorem test_decode_shl : decodeTableWord 24 0x0201AC = some (.shl 1 2) := by decide
theorem test_decode_shr : decodeTableWord 24 0x0201AD = some (.shr 1 2) := by decide
theorem test_decode_cmp : decodeTableWord 24 0x0201A7 = some (.cmp 1 2) := by decide
theorem test_decode_inc : decodeTableWord 16 0x0365 = some (.inc 3) := by decide
theorem test_decode_dec : decodeTableWord 16 0x0366 = some (.dec 3) := by decide
theorem test_decode_not : decodeTableWord 16 0x0369 = some (.not 3) := by decide
theorem test_decode_call : decodeTableWord 16 0b00000001_01010000 = some (.call 1) := by decide
theorem test_decode_ret : decodeTableWord 8 0x11 = some .ret := by decide
theorem test_decode_jmp : decodeTableWord 16 0x0254 = some (.jmp 2) := by decide
theorem test_decode_jeq : decodeTableWord 16 0x0155 = some (.jeq 1) := by decide
theorem test_decode_jne : decodeTableWord 16 0x0156 = some (.jne 1) := by decide
theorem test_decode_jgt : decodeTableWord 16 0x0157 = some (.jgt 1) := by decide
theorem test_decode_jlt : decodeTableWord 16 0x0158 = some (.jlt 1) := by decide
theorem test_decode_jle : decodeTableWord 16 0x0159 = some (.jle 1) := by decide
theorem test_decode_jge : decodeTableWord 16 0x015A = some (.jge 1) := by decide
theorem test_decode_int : decodeTableWord 16 0b11111111_01010010 = some (.int 0xFF) := by decide
theorem test_decode_iret : decodeTableWord 8 0x13 = some .iret := by decide
/-- Vector TE15. -/
theorem test_decode_illegal : decode .default [0xA5, 0, 0] = .error (.unimplementedOpcode 0xA5) := by decide
/-- Vector TE4, as far as the decoder sees it. -/
theorem test_decode_missing_operand : decode .default [0x82, 0] = .error (.missingOperand 2) := by decide
/-- Vector TE16: bits of the opcode byte are not decoded one by one (R66). -/
theorem test_decode_unused_bit : decodeTableWord 8 0x5B = none := by decide

/-! ### One step -/

/-- TH1. -/
theorem test_hlt : after (atPc 5) [0x01] (fun t => (t.running, t.fault, t.pc)) = some (false, none, 5) := by decide
/-- W8. -/
theorem test_hlt_ignores_what_follows :
    after State.reset [0x01, 0xFF, 0xFF] (fun t => (t.status, t.pc)) = some (.halted, 0) := by decide
/-- TE1. -/
theorem test_nop : after State.reset [0x00] (fun t => (t.pc, t.regs)) = some (1, State.reset.regs) := by decide
/-- TE6: the pc is not reduced. -/
theorem test_nop_leaves_memory :
    after (atPc 255) [0x00] (fun t => (t.pc, t.status)) = some (256, .running) := by decide
/-- W1, TD1. -/
theorem test_ldi : after State.reset [0x82, 0x00, 0x08] (fun t => (t.reg 0, t.pc)) = some (8, 3) := by decide
/-- TD2. -/
theorem test_ldi_sp : after State.reset [0x82, 0x07, 0x00] (fun t => (t.sp, t.pc)) = some (0, 3) := by decide
/-- TD4: the address is read before the write. -/
theorem test_ld :
    after { State.reset.setReg 3 0x20 with mem := [(0x20, 0x77)] } [0x83, 0x03, 0x03] (fun t => (t.reg 3, t.pc)) =
      some (0x77, 3) := by decide
/-- TM3: the address is the memory size. -/
theorem test_ld_out_of_bounds :
    after ((sized 16).setReg 1 0x10) [0x83, 0x00, 0x01] (fun t => (t.fault, t.pc)) =
      some (some ⟨.outOfBounds, 0x10, 0⟩, 0) := by decide
/-- TD6. -/
theorem test_st :
    after (pair 0x20 0x99) [0x84, 0x00, 0x01] (fun t => (Memory.peek t.mem 0x20, t.pc)) = some (0x99, 3) := by decide
/-- TM4: the address is the memory size plus 1. -/
theorem test_st_out_of_bounds :
    after ((sized 16).setReg 1 0x11) [0x84, 0x01, 0x00] (fun t => (t.fault, t.pc)) =
      some (some ⟨.outOfBounds, 0x11, 0⟩, 0) := by decide
/-- TS3: SP wraps. -/
theorem test_push :
    after ((State.reset.setReg 7 0).setReg 1 0x33) [0x45, 0x01] (fun t => (t.sp, Memory.peek t.mem 0xFF, t.pc)) =
      some (0xFF, 0x33, 2) := by decide
/-- TS6: the value is read after the SP update. -/
theorem test_push_sp :
    after State.reset [0x45, 0x07] (fun t => (t.sp, Memory.peek t.mem 0xF3)) = some (0xF3, 0xF3) := by decide
/-- TS4: SP wraps, the cell is not cleared. -/
theorem test_pop :
    after { State.reset.setReg 7 0xFF with mem := [(0xFF, 0x77)] } [0x46, 0x01] (fun t => (t.reg 1, t.sp, Memory.peek t.mem 0xFF)) =
      some (0x77, 0, 0x77) := by decide
/-- TS9. -/
theorem test_pop_sp :
    after { State.reset.setReg 7 0xF3 with mem := [(0xF3, 0x10)] } [0x46, 0x07] (fun t => (t.sp, t.pc)) =
      some (0x11, 2) := by decide
/-- TO1. -/
theorem test_prn :
    after (State.reset.setReg 0 8) [0x47, 0x00] (fun t => (t.out, t.pc)) = some ([.dec 8], 2) := by decide
/-- TO2: unsigned decimal and a newline. -/
theorem test_prn_render : OutputEvent.render (.dec 255) = ['2', '5', '5', '\n'] := by decide
/-- TO3. -/
theorem test_pra :
    after (State.reset.setReg 2 0x41) [0x48, 0x02] (fun t => (t.out, t.pc)) = some ([.char 0x41], 2) := by decide
/-- TO3: one character and no newline. -/
theorem test_pra_render : OutputEvent.render (.char 0x41) = ['A'] := by decide
/-- TA1. -/
theorem test_add :
    after (pair 0xC8 0x64) [0xA0, 0x00, 0x01] (fun t => (t.reg 0, t.reg 1, t.pc)) = some (0x2C, 0x64, 3) := by decide
/-- TA2. -/
theorem test_add_wraps :
    after (pair 0xFF 0x01) [0xA0, 0x00, 0x01] (fun t => (t.reg 0, t.reg 1, t.pc)) = some (0x00, 0x01, 3) := by decide
/-- TA4. -/
theorem test_sub :
    after (pair 0x03 0x05) [0xA1, 0x00, 0x01] (fun t => (t.reg 0, t.reg 1, t.pc)) = some (0xFE, 0x05, 3) := by decide
/-- TA6. -/
theorem test_sub_zero :
    after (pair 0x05 0x05) [0xA1, 0x00, 0x01] (fun t => (t.reg 0, t.reg 1, t.pc)) = some (0x00, 0x05, 3) := by decide
/-- TA7. -/
theorem test_mul :
    after (pair 0x08 0x09) [0xA2, 0x00, 0x01] (fun t => (t.reg 0, t.reg 1, t.pc)) = some (0x48, 0x09, 3) := by decide
/-- TA9. -/
theorem test_mul_wraps :
    after (pair 0xFF 0xFF) [0xA2, 0x00, 0x01] (fun t => (t.reg 0, t.reg 1, t.pc)) = some (0x01, 0xFF, 3) := by decide
/-- TA11. -/
theorem test_div :
    after (pair 0xC8 0x07) [0xA3, 0x00, 0x01] (fun t => (t.reg 0, t.reg 1, t.pc)) = some (0x1C, 0x07, 3) := by decide
/-- TA14. -/
theorem test_div_by_zero :
    after (pair 0x05 0x00) [0xA3, 0x00, 0x01] (fun t => (t.reg 0, t.fault, t.pc)) =
      some (5, some ⟨.divisionByZero, 0, 0⟩, 0) := by decide
/-- TA15. -/
theorem test_mod :
    after (pair 0xC8 0x07) [0xA4, 0x00, 0x01] (fun t => (t.reg 0, t.reg 1, t.pc)) = some (0x04, 0x07, 3) := by decide
/-- TA18. -/
theorem test_mod_by_zero :
    after (pair 0x05 0x00) [0xA4, 0x00, 0x01] (fun t => (t.reg 0, t.fault, t.pc)) =
      some (5, some ⟨.divisionByZero, 0, 0⟩, 0) := by decide
/-- TA19. -/
theorem test_and :
    after (pair 0xCC 0xAA) [0xA8, 0x00, 0x01] (fun t => (t.reg 0, t.reg 1, t.pc)) = some (0x88, 0xAA, 3) := by decide
/-- TA20. -/
theorem test_or :
    after (pair 0xCC 0xAA) [0xAA, 0x00, 0x01] (fun t => (t.reg 0, t.reg 1, t.pc)) = some (0xEE, 0xAA, 3) := by decide
/-- TA21. -/
theorem test_xor :
    after (pair 0xCC 0xAA) [0xAB, 0x00, 0x01] (fun t => (t.reg 0, t.reg 1, t.pc)) = some (0x66, 0xAA, 3) := by decide
/-- TA22. -/
theorem test_shl :
    after (pair 0x17 0x03) [0xAC, 0x00, 0x01] (fun t => (t.reg 0, t.reg 1, t.pc)) = some (0xB8, 0x03, 3) := by decide
/-- TA25. -/
theorem test_shl_by_9 :
    after (pair 0x01 0x09) [0xAC, 0x00, 0x01] (fun t => (t.reg 0, t.reg 1, t.pc)) = some (0x00, 0x09, 3) := by decide
/-- TA27. -/
theorem test_shr :
    after (pair 0x96 0x02) [0xAD, 0x00, 0x01] (fun t => (t.reg 0, t.reg 1, t.pc)) = some (0x25, 0x02, 3) := by decide
/-- TA29. -/
theorem test_shr_by_255 :
    after (pair 0xFF 0xFF) [0xAD, 0x00, 0x01] (fun t => (t.reg 0, t.reg 1, t.pc)) = some (0x00, 0xFF, 3) := by decide
/-- TA33. -/
theorem test_cmp_unsigned :
    after (pair 0x80 0x7F) [0xA7, 0x00, 0x01] (fun t => (t.fl, t.regs, t.pc)) =
      some (2, (pair 0x80 0x7F).regs, 3) := by decide
/-- TA35: from an FL of 06. -/
theorem test_cmp_overwrites :
    after { State.reset with fl := 6 } [0xA7, 0x00, 0x01] (fun t => (t.fl, t.pc)) = some (1, 3) := by decide
/-- TA36. -/
theorem test_inc_wraps :
    after (State.reset.setReg 3 0xFF) [0x65, 0x03] (fun t => (t.reg 3, t.pc)) = some (0, 2) := by decide
/-- TA42. -/
theorem test_inc_sp : after State.reset [0x65, 0x07] (fun t => t.sp) = some 0xF5 := by decide
/-- TA38. -/
theorem test_dec_wraps : after State.reset [0x66, 0x03] (fun t => (t.reg 3, t.pc)) = some (0xFF, 2) := by decide
/-- TA39. -/
theorem test_dec : after (State.reset.setReg 3 0x80) [0x66, 0x03] (fun t => t.reg 3) = some 0x7F := by decide
/-- TA40. -/
theorem test_not :
    after (State.reset.setReg 3 0xA5) [0x69, 0x03] (fun t => (t.reg 3, t.pc)) = some (0x5A, 2) := by decide
/-- TC1. -/
theorem test_call :
    after ((atPc 0x10).setReg 1 0x40) [0x50, 0x01] (fun t => (t.sp, Memory.peek t.mem 0xF3, t.pc)) =
      some (0xF3, 0x12, 0x40) := by decide
/-- TC3. -/
theorem test_call_at_254 :
    after (atPc 0xFE) [0x50, 0x00] (fun t => (t.fault, t.sp, t.pc)) =
      some (some ⟨.outOfBounds, 256, 254⟩, 0xF4, 254) := by decide
/-- TC2. -/
theorem test_ret :
    after { (State.reset.setReg 7 0xF3) with mem := [(0xF3, 0x12)] } [0x11] (fun t => (t.sp, t.pc)) =
      some (0xF4, 0x12) := by decide
/-- TM2. -/
theorem test_ret_out_of_bounds :
    after (sized 0xF4) [0x11] (fun t => (t.fault, t.sp)) = some (some ⟨.outOfBounds, 0xF4, 0⟩, 0xF4) := by decide
/-- TC7. -/
theorem test_jmp : after (State.reset.setReg 2 0x30) [0x54, 0x02] (fun t => t.pc) = some 0x30 := by decide
/-- TC15, TC9 to TC14, TC16, TC17: FL with E, before any CMP, with G, with L. -/
theorem test_jeq :
    ([0x01, 0x00, 0x02, 0x04].map fun fl => after (flagged fl) [0x55, 0x01] (fun t => t.pc)) =
      [some 0x20, some 0x0A, some 0x0A, some 0x0A] := by decide
/-- TC15, TC9 to TC14, TC16, TC17: FL with E, before any CMP, with G, with L. -/
theorem test_jne :
    ([0x01, 0x00, 0x02, 0x04].map fun fl => after (flagged fl) [0x56, 0x01] (fun t => t.pc)) =
      [some 0x0A, some 0x20, some 0x20, some 0x20] := by decide
/-- TC15, TC9 to TC14, TC16, TC17: FL with E, before any CMP, with G, with L. -/
theorem test_jgt :
    ([0x01, 0x00, 0x02, 0x04].map fun fl => after (flagged fl) [0x57, 0x01] (fun t => t.pc)) =
      [some 0x0A, some 0x0A, some 0x20, some 0x0A] := by decide
/-- TC15, TC9 to TC14, TC16, TC17: FL with E, before any CMP, with G, with L. -/
theorem test_jlt :
    ([0x01, 0x00, 0x02, 0x04].map fun fl => after (flagged fl) [0x58, 0x01] (fun t => t.pc)) =
      [some 0x0A, some 0x0A, some 0x0A, some 0x20] := by decide
/-- TC15, TC9 to TC14, TC16, TC17: FL with E, before any CMP, with G, with L. -/
theorem test_jle :
    ([0x01, 0x00, 0x02, 0x04].map fun fl => after (flagged fl) [0x59, 0x01] (fun t => t.pc)) =
      [some 0x20, some 0x0A, some 0x0A, some 0x20] := by decide
/-- TC15, TC9 to TC14, TC16, TC17: FL with E, before any CMP, with G, with L. -/
theorem test_jge :
    ([0x01, 0x00, 0x02, 0x04].map fun fl => after (flagged fl) [0x5A, 0x01] (fun t => t.pc)) =
      [some 0x20, some 0x0A, some 0x20, some 0x0A] := by decide
/-- TE13: the operand byte is not checked. -/
theorem test_int :
    after State.reset [0x52, 0xFF] (fun t => (t.pc, t.regs, t.fl)) = some (2, State.reset.regs, 0) := by decide
/-- TI2. -/
theorem test_int_operand_is_fetched :
    after (atPc 255) [0x52] (fun t => (t.fault, t.pc)) = some (some ⟨.outOfBounds, 256, 255⟩, 255) := by decide
/-- TI3: nothing is popped. -/
theorem test_iret : after ((atPc 9).setReg 7 0xF3) [0x13] (fun t => (t.pc, t.sp)) = some (0x0A, 0xF3) := by decide

/-! ### The cycle, faults, load and the console -/

/-- TE6, TH3: the second step. -/
theorem test_opcode_fetch_past_the_end :
    after (atPc 256) [0x00] (fun t => (t.fault, t.pc)) = some (some ⟨.outOfBounds, 256, 256⟩, 256) := by decide
/-- TE3. -/
theorem test_operand_1_past_the_end :
    after (atPc 255) [0x82] (fun t => t.fault) = some (some ⟨.outOfBounds, 256, 255⟩) := by decide
/-- TE4. -/
theorem test_operand_2_past_the_end :
    after (atPc 254) [0x82, 0x00] (fun t => t.fault) = some (some ⟨.outOfBounds, 256, 254⟩) := by decide
/-- TE5. -/
theorem test_prefetch_past_the_end :
    after { prefetching 256 with pc := 255 } [0x01] (fun t => (t.fault, t.running)) =
      some (some ⟨.outOfBounds, 256, 255⟩, true) := by decide
/-- W2. -/
theorem test_unimplemented_opcode :
    after State.reset [0xFF] (fun t => (t.fault, t.pc)) = some (some ⟨.unimplementedOpcode, 0xFF, 0⟩, 0) := by decide
/-- TE16. -/
theorem test_unimplemented_before_operands :
    after (atPc 255) [0x5B] (fun t => t.fault) = some (some ⟨.unimplementedOpcode, 0x5B, 255⟩) := by decide
/-- TE7. -/
theorem test_invalid_register :
    after State.reset [0x47, 0x08] (fun t => (t.fault, t.out)) = some (some ⟨.invalidRegister, 8, 0⟩, []) := by decide
/-- TE8. -/
theorem test_invalid_register_first :
    after State.reset [0xA0, 0x09, 0x0A] (fun t => t.fault) = some (some ⟨.invalidRegister, 9, 0⟩) := by decide
/-- TE9. -/
theorem test_invalid_register_second :
    after State.reset [0xA0, 0x00, 0x0A] (fun t => t.fault) = some (some ⟨.invalidRegister, 0x0A, 0⟩) := by decide
/-- TE10. -/
theorem test_invalid_register_of_untaken_jump :
    after State.reset [0x55, 0x08] (fun t => t.fault) = some (some ⟨.invalidRegister, 8, 0⟩) := by decide
/-- TE17. -/
theorem test_halted_core_has_no_step : stopOf (step { State.reset with running := false }) = some .halted := by decide
/-- TL1, with one cell. -/
theorem test_load_too_large : (sized 1).load [1, 2] = .error .imageTooLarge := by decide
/-- TL3. -/
theorem test_load_twice :
    ((State.reset.load [1, 2]).toOption.bind fun s => (s.load [5]).toOption).map (fun s => (s.mem, s.pc)) =
      some ([(0, 5), (1, 2)], 0) := by decide
/-- W1, P1. -/
theorem test_run_p1 :
    ((State.reset.load [0x82, 0, 8, 0x47, 0, 1]).toOption.map fun s => ((s.runFor 3).out, (s.runFor 3).runResult)) =
      some ([.dec 8], some .success) := by decide

/-! ### Hypotheses that can be met: one witness per statement, and per clause at its boundary -/

theorem witness_DecodeOfEncodeIsTheInstruction : OpcodeMap.default.distinct = true := by decide
theorem witness_DecodedBytesAreTheEncoding : decode .default [0x82, 0, 8, 1] = .ok (.ldi 0 8, [1]) := by decide
theorem witness_StepRunsTheDecodedInstruction :
    (place State.reset [0x47, 0]).status = .running ∧ State.reset.cfg.operandPrefetch = false ∧
      decode .default (place State.reset [0x47, 0]).window = .ok (.prn 0, [0]) := by decide
theorem witness_StepRunsTheDecodedInstruction_last_cell :
    (place (atPc 255) [0x01]).status = .running ∧
      decode .default (place (atPc 255) [0x01]).window = .ok (.hlt, []) := by decide
theorem witness_StepRunsTheDecodedInstruction_prefetch :
    (place (prefetching 3) [0x01]).status = .running ∧ 2 < (prefetching 3).cfg.memSize ∧
      decode .default (place (prefetching 3) [0x01]).window = .ok (.hlt, [0, 0]) := by decide
theorem witness_FetchFaultsInOrder_opcode : (atPc 256).status = .running ∧ (atPc 256).cfg.memSize ≤ 256 := by decide
theorem witness_FetchFaultsInOrder_prefetch_1 :
    (prefetching 1).status = .running ∧ 0 < (prefetching 1).cfg.memSize ∧
      (prefetching 1).cfg.operandPrefetch = true ∧ (prefetching 1).cfg.memSize ≤ 1 := by decide
theorem witness_FetchFaultsInOrder_prefetch_2 :
    (prefetching 2).status = .running ∧ 1 < (prefetching 2).cfg.memSize ∧
      (prefetching 2).cfg.operandPrefetch = true ∧ (prefetching 2).cfg.memSize ≤ 2 := by decide
theorem witness_FetchFaultsInOrder_lookup :
    (place (sized 1) [0xFF]).status = .running ∧ 0 < (sized 1).cfg.memSize ∧
      (sized 1).cfg.operandPrefetch = false ∧
      OpcodeMap.default.lookup (Memory.peek (place (sized 1) [0xFF]).mem 0) = none := by decide
theorem witness_FetchFaultsInOrder_operand_1 :
    (place (sized 1) [0x45]).status = .running ∧ 0 < (sized 1).cfg.memSize ∧
      (sized 1).cfg.operandPrefetch = false ∧
      OpcodeMap.default.lookup (Memory.peek (place (sized 1) [0x45]).mem 0) = some .push ∧
      Mnemonic.width .push = 2 ∧ (sized 1).cfg.memSize ≤ 1 := by decide
theorem witness_FetchFaultsInOrder_operand_2 :
    (place (sized 2) [0x82]).status = .running ∧ (sized 2).cfg.operandPrefetch = false ∧
      OpcodeMap.default.lookup (Memory.peek (place (sized 2) [0x82]).mem 0) = some .ldi ∧
      Mnemonic.width .ldi = 3 ∧ 1 < (sized 2).cfg.memSize ∧ (sized 2).cfg.memSize ≤ 2 := by decide
theorem witness_UnlistedOpcodeStopsTheRun :
    (place State.reset [0xFF]).status = .running ∧ State.reset.cfg.operandPrefetch = false ∧
      (place State.reset [0xFF]).memRead 0 = .ok 0xFF ∧ OpcodeMap.default.lookup 0xFF = none := by decide
theorem witness_ExactlyRunningCoresStep :
    State.reset.status = .running ∧ (nextOf (step State.reset)).isSome = true := by decide
theorem witness_StoppedCoreStaysAsItIs_halted :
    ({ State.reset with running := false } : State).status = .halted := by decide
theorem witness_StoppedCoreStaysAsItIs_faulted :
    ({ State.reset with fault := some ⟨.outOfBounds, 256, 0⟩ } : State).status = .faulted ⟨.outOfBounds, 256, 0⟩ := by decide
theorem witness_EndedRunHasOneResult : ((place State.reset [0x01]).runFor 1).status ≠ .running ∧ 1 ≤ 2 := by decide
theorem witness_ResetStateMeetsInvariant :
    Config.wf Config.reference = true ∧ Config.wf { Config.reference with memSize := 1 } = true := by decide
theorem witness_LoadCopiesTheImage_too_large : (sized 1).cfg.memSize < [(1 : Byte), 2].length := by decide
theorem witness_LoadCopiesTheImage_whole_memory :
    [(1 : Byte), 2].length ≤ (sized 2).cfg.memSize ∧ Memory.wf (sized 2).mem = true := by decide
/-- A state that meets the invariant and has a next state: HLT at 0, FL holding G. -/
theorem witness_StepKeepsInvariant :
    ({ State.reset with mem := [(0, 1)], fl := 2 } : State).Inv ∧
      (nextOf (step { State.reset with mem := [(0, 1)], fl := 2 })).isSome = true :=
  ⟨⟨by decide, by decide, by decide, .inr (.inr (.inl rfl)), by decide, fun _ h => by cases h⟩, by decide⟩
/-- A Faulted state that meets the invariant, and an image it loads. -/
theorem witness_LoadKeepsInvariant :
    ({ atPc 1 with mem := [(1, 255)], fault := some ⟨.unimplementedOpcode, 255, 1⟩ } : State).Inv ∧
      (({ atPc 1 with mem := [(1, 255)], fault := some ⟨.unimplementedOpcode, 255, 1⟩ } : State).load
        [7]).toOption.isSome = true :=
  ⟨⟨by decide, by decide, by decide, .inl rfl, by decide, fun _ h => by cases h; exact ⟨rfl, ⟨255, rfl, by decide⟩, rfl⟩⟩,
    by decide⟩
theorem witness_ReadIsBoundsChecked : 255 < State.reset.cfg.memSize ∧ State.reset.cfg.memSize ≤ 256 := by decide
theorem witness_WriteChangesExactlyOneCell :
    255 < State.reset.cfg.memSize ∧ Memory.wf State.reset.mem = true ∧ State.reset.cfg.memSize ≤ 256 := by decide
theorem witness_InvalidRegisterOperandFaults_8 :
    Instr.firstInvalid (.prn 8) = some 8 ∧ Instr.firstInvalid (.ld 7 255) = some 255 := by decide
theorem witness_InvalidRegisterOperandFaults_valid :
    Instr.firstInvalid (.div 0 1) = none ∧ State.reset.fault = none ∧
      ((nextOf (exec (.div 0 1) State.reset)).bind fun t => t.fault) = some ⟨.divisionByZero, 0, 0⟩ := by decide
theorem witness_LdReadsTheAddressedCell :
    (((sized 16).setReg 1 15).reg 1).toNat < (sized 16).cfg.memSize ∧
      (sized 16).cfg.memSize ≤ (((sized 16).setReg 1 16).reg 1).toNat := by decide
theorem witness_StWritesTheAddressedCell :
    Memory.wf (sized 16).mem = true ∧ (((sized 16).setReg 0 15).reg 0).toNat < (sized 16).cfg.memSize ∧
      (sized 16).cfg.memSize ≤ (((sized 16).setReg 0 16).reg 0).toNat := by decide
theorem witness_PushStoresBelowSp :
    Memory.wf (sized 0xF4).mem = true ∧ ((sized 0xF4).sp.toNat + 255) % 256 < (sized 0xF4).cfg.memSize ∧
      (sized 0xF3).cfg.memSize ≤ ((sized 0xF3).sp.toNat + 255) % 256 := by decide
theorem witness_PopLoadsFromSp :
    (sized 0xF5).sp.toNat < (sized 0xF5).cfg.memSize ∧ (sized 0xF4).cfg.memSize ≤ (sized 0xF4).sp.toNat := by decide
theorem witness_DivModGiveQuotientAndRemainder : (pair 0 1).reg 1 ≠ 0 := by decide
theorem witness_DivisionByZeroAlwaysFaults : (pair 5 0).reg 1 = 0 := by decide
theorem witness_CallPushesTheReturnAddress :
    Memory.wf (atPc 253).mem = true ∧ (atPc 253).pc + 2 ≤ 255 ∧
      ((atPc 253).sp.toNat + 255) % 256 < (atPc 253).cfg.memSize := by decide
theorem witness_CallFaultsBeforeItWrites :
    255 < (atPc 254).pc + 2 ∧ (sized 0xF3).pc + 2 ≤ 255 ∧
      (sized 0xF3).cfg.memSize ≤ ((sized 0xF3).sp.toNat + 255) % 256 := by decide
theorem witness_RetPopsThePc :
    (sized 0xF5).sp.toNat < (sized 0xF5).cfg.memSize ∧ (sized 0xF4).cfg.memSize ≤ (sized 0xF4).sp.toNat := by decide
theorem witness_CompareThenJumpDecides : State.reset.fl = 0 := by decide
/-- The second state differs from the first in a register INC R0 does not read. -/
theorem witness_RegistersReadAndWritten :
    ((nextOf (exec (.inc 0) State.reset)).map fun t => (t.reg 0, t.fault)) = some (1, none) ∧
      ((nextOf (exec (.inc 0) (State.reset.setReg 3 9))).map fun t => (t.reg 0, t.fault)) = some (1, none) ∧
      (State.reset.setReg 3 9).reg 0 = State.reset.reg 0 := by decide
theorem witness_FlagsWrittenByCmpReadByJumps :
    ((nextOf (exec (.cmp 0 1) State.reset)).map fun t => (t.fl, t.fault)) = some (1, none) ∧
      ((nextOf (exec (.cmp 0 1) { State.reset with fl := 4 })).map fun t => t.fl) = some 1 := by decide
theorem witness_MemoryChangesOnlyAtTheStoreAddress :
    storeAddress (.push 0) State.reset = some 0xF3 ∧ storeAddress (.push 8) State.reset = none ∧
      (nextOf (exec (.push 0) State.reset)).isSome = true := by decide
theorem witness_DataReadsAtMostOneCell_load :
    loadAddress (.pop 0) State.reset = some 0xF4 ∧
      Memory.peek [(0, 9)] 0xF4 = Memory.peek State.reset.mem 0xF4 ∧
      (nextOf (exec (.pop 0) State.reset)).isSome = true ∧
      (nextOf (exec (.pop 0) { State.reset with mem := [(0, 9)] })).isSome = true := by decide
/-- The two memories differ in the very cell ST writes. -/
theorem witness_DataReadsAtMostOneCell_store :
    Memory.wf (pair 0x20 7).mem = true ∧ Memory.wf [(0x20, 9)] = true ∧
      loadAddress (.st 0 1) (pair 0x20 7) = none ∧ storeAddress (.st 0 1) (pair 0x20 7) = some 0x20 ∧
      (pair 0x20 7).fault = none ∧
      ((nextOf (exec (.st 0 1) (pair 0x20 7))).map fun t => (t.fault, t.mem)) = some (none, [(0x20, 7)]) ∧
      ((nextOf (exec (.st 0 1) { pair 0x20 7 with mem := [(0x20, 9)] })).map fun t => t.mem) =
      some [(0x20, 7)] := by decide
theorem witness_DataReadsAtMostOneCell_fault :
    Memory.wf (sized 0xF3).mem = true ∧ Memory.wf [(0, 9)] = true ∧
      storeAddress (.push 0) (sized 0xF3) = some 0xF3 ∧ (sized 0xF3).fault = none ∧
      ((nextOf (exec (.push 0) (sized 0xF3))).bind fun t => t.fault) = some ⟨.outOfBounds, 0xF3, 0⟩ ∧
      ((nextOf (exec (.push 0) { sized 0xF3 with mem := [(0, 9)] })).map fun t => t.mem) = some [(0, 9)] := by decide
theorem witness_OnlyHltClearsRunning :
    (nextOf (exec .hlt State.reset)).isSome = true ∧
      (({ State.reset with running := false } : State).load [7]).toOption.isSome = true ∧
      (nextOf (step State.reset)).isSome = true ∧
      ({ State.reset with fault := some ⟨.outOfBounds, 256, 0⟩ } : State).fault = some ⟨.outOfBounds, 256, 0⟩ := by decide
theorem witness_OutputOnlyAppended :
    ((nextOf (exec (.prn 0) { State.reset with out := [.char 7] })).map fun t => t.out) =
      some [.char 7, .dec 0] := by decide
theorem witness_FaultsArePreciseAndFinal :
    after State.reset [0xFF] (fun t => t.fault) = some (some ⟨.unimplementedOpcode, 0xFF, 0⟩) := by decide
theorem witness_ProgramCounterAfterAnInstruction :
    State.reset.fault = none ∧
      ((nextOf (exec (.call 7) State.reset)).map fun t => (t.fault, t.pc)) = some (none, 0xF3) := by decide
theorem witness_ConfigurationNeverChanges : (nextOf (step State.reset)).isSome = true := by decide
theorem witness_NoDataAccessOutOfBoundsWith256Cells :
    (atPc 254).cfg.memSize = 256 ∧ (atPc 254).fault = none ∧
      ((nextOf (exec (.call 0) (atPc 254))).bind fun t => t.fault) = some ⟨.outOfBounds, 256, 254⟩ := by decide
theorem witness_FirstPushNeedsTheResetStack_too_small :
    ({ sized 0xF3 with pc := 253 } : State).sp = 0xF4 ∧
      ({ sized 0xF3 with pc := 253 } : State).cfg.memSize ≤ 0xF3 ∧
      ({ sized 0xF3 with pc := 253 } : State).pc + 2 ≤ 255 := by decide
theorem witness_FirstPushNeedsTheResetStack_large_enough :
    ({ sized 0xF4 with pc := 253 } : State).sp = 0xF4 ∧
      0xF4 ≤ ({ sized 0xF4 with pc := 253 } : State).cfg.memSize ∧
      ({ sized 0xF4 with pc := 253 } : State).pc + 2 ≤ 255 ∧
      ({ sized 0xF4 with pc := 253 } : State).cfg.memSize ≤ 0xF4 := by decide
theorem witness_PushPopRoundTrip :
    Memory.wf (sized 0xF4).mem = true ∧ ((sized 0xF4).sp.toNat + 255) % 256 < (sized 0xF4).cfg.memSize ∧
      (6 : Reg) ≠ 7 := by decide
theorem witness_CallRetRoundTrip :
    Memory.wf (atPc 253).mem = true ∧ (atPc 253).pc + 2 ≤ 255 ∧
      ((atPc 253).sp.toNat + 255) % 256 < (atPc 253).cfg.memSize ∧
      ((nextOf (exec (.call 0) (atPc 253))).map fun t => (t.sp, Memory.peek t.mem 0xF3)) = some (0xF3, 255) := by decide
/-- As program P6. -/
theorem witness_StoreSeenByTheNextFetch :
    Memory.wf (pair 3 1).mem = true ∧ (pair 3 1).status = .running ∧ (pair 3 1).cfg.operandPrefetch = false ∧
      ((pair 3 1).reg 0).toNat = (pair 3 1).pc + 3 ∧ (pair 3 1).pc + 3 < (pair 3 1).cfg.memSize ∧
      OpcodeMap.default.lookup ((pair 3 1).reg 1) = some .hlt ∧ Mnemonic.width .hlt = 1 := by decide
theorem witness_ZeroedMemoryRunsOffTheEnd :
    (atPc 256).status = .running ∧ (atPc 256).cfg.operandPrefetch = false ∧ (atPc 256).mem = [] ∧
      (atPc 256).pc ≤ (atPc 256).cfg.memSize ∧ (atPc 256).cfg.opcodeMap.lookup 0 = some .nop := by decide
theorem witness_FetchWordRunsAsTheFirstInstruction :
    decodeTableWord 24 0x080082 = some (.ldi 0 8) ∧
      nextOf (step (State.reset.withFetchWord 24 0x080082)) = nextOf (exec (.ldi 0 8) (State.reset.withFetchWord 24 0x080082)) := by decide

end Sys2Proof.Tests
end

/-! ### What an instruction changes, field by field -/

namespace Sys2Proof.Machine

section
variable {i : Instr} {s t : State}

/-- A jump that may be taken sets the pc and nothing else. -/
@[simp] theorem ite_jump_advance (s : State) (c : Bool) (v : Byte) (n : Nat) :
    (if c then s.jump v else s.advance n) = { s with pc := if c then v.toNat else s.pc + n } := by
  cases c <;> rfl

/-- An instruction that completes changes no parameter (10_state.md R35). -/
theorem Completes.cfg (h : Completes i s t) : t.cfg = s.cfg := by cases h <;> simp

/-- An instruction that completes leaves the fault record alone. -/
theorem Completes.fault (h : Completes i s t) : t.fault = s.fault := by cases h <;> simp

/-- An instruction that completes writes at most one cell, and one inside memory. -/
theorem Completes.mem_cases (h : Completes i s t) :
    t.mem = s.mem ∨ ∃ a v, a < s.cfg.memSize ∧ t.mem = Memory.poke s.mem a v := by
  cases h with
  | st _ a b h => exact .inr ⟨_, _, h, rfl⟩
  | push _ a h => exact .inr ⟨_, _, h, rfl⟩
  | call _ a hr h => exact .inr ⟨_, _, h, rfl⟩
  | _ => exact .inl (by simp)

/-- CMP alone writes FL, and then the whole of it (10_state.md R28). -/
theorem Completes.fl_cases (h : Completes i s t) :
    ((∀ ra rb, i ≠ .cmp ra rb) ∧ t.fl = s.fl) ∨
    ∃ a b : Reg, i = .cmp a.byte b.byte ∧ t.fl = compareFlags (s.reg a) (s.reg b) := by
  cases h with
  | cmp _ a b => exact .inr ⟨a, b, rfl, rfl⟩
  | _ => exact .inl ⟨fun _ _ => Instr.noConfusion, by simp⟩

/-- A byte is a legal pc in any memory. -/
theorem toNat_le_max (v : Byte) (n : Nat) : v.toNat ≤ max n 255 := le_max_of_le_right (Nat.le_of_lt_succ v.isLt)

/-- A conditional jump leaves the pc at a byte or past itself. -/
theorem branch_pc_le (s : State) (c : Bool) (v : Byte) :
    (if c then s.jump v else s.advance 2).pc ≤ max (s.pc + 2) 255 := by
  cases c
  · exact Nat.le_max_left _ _
  · exact toNat_le_max v _

/-- The pc stays, moves past the instruction, or takes the value of a byte (10_state.md R26). -/
theorem Completes.pc_le (h : Completes i s t) : t.pc ≤ max (s.pc + i.width) 255 := by
  cases h with
  | hlt => exact le_max_of_le_left (Nat.le_add_right _ _)
  | call => exact toNat_le_max _ _
  | ret => exact toNat_le_max _ _
  | jmp => exact toNat_le_max _ _
  | jeq => exact branch_pc_le _ _ _
  | jne => exact branch_pc_le _ _ _
  | jgt => exact branch_pc_le _ _ _
  | jlt => exact branch_pc_le _ _ _
  | jle => exact branch_pc_le _ _ _
  | jge => exact branch_pc_le _ _ _
  | _ => exact Nat.le_max_left _ _

/-! ### The invariant -/

/-- CMP's value is a legal one. -/
theorem legalFlags_compareFlags (a b : Byte) : LegalFlags (compareFlags a b) := by
  obtain ⟨-, e⟩ | ⟨-, e⟩ | ⟨-, e⟩ := compareFlags_cases a b
  · exact .inr (.inl e)
  · exact .inr (.inr (.inl e))
  · exact .inr (.inr (.inr e))

/-- The record that taking a trap leaves holds a value of its kind. -/
def Trap.Legal (s : State) (e : Trap) : Prop := FaultRecord.Legal s.cfg ⟨e.kind, e.value, s.pc⟩

/-- Accepted parameters give at most 256 cells (00_scope.md R4). -/
theorem State.Inv.memSize_le (h : s.Inv) : s.cfg.memSize ≤ 256 := by
  have hwf := h.cfg_wf
  simp only [Config.wf, Config.sizeOk, Bool.and_eq_true, decide_eq_true_eq] at hwf
  exact hwf.1.2

/-- What an instruction raises is truthful: a return address above 255 lies outside memory too. -/
theorem Raises.legal {e : Trap} (hs : s.cfg.memSize ≤ 256) (h : Raises i s e) : e.Legal s := by
  cases h with
  | invalid _ _ r h =>
    have hr : namesRegister r = false := by simpa using List.find?_some h
    exact ⟨(namesRegister_eq_false r).1 hr, Nat.le_of_lt_succ r.isLt⟩
  | ld _ a b h => exact h
  | st _ a b h => exact h
  | push _ a h => exact h
  | pop _ d h => exact h
  | div => rfl
  | mod => rfl
  | callReturn _ a h => exact hs.trans h
  | call _ a hr h => exact h
  | ret _ h => exact h

/-- What a fetch raises is truthful. -/
theorem legal_of_fetch_error {e : Trap} (h : s.fetch = .error e) : e.Legal s := by
  obtain ⟨mn, b1, b2, hf, -⟩ | ⟨a, ha, hf⟩ | ⟨hl, hf⟩ := fetch_cases s
  · rw [hf] at h; cases h
  · rw [hf] at h; cases h; exact ha
  · rw [hf] at h; cases h; exact ⟨_, rfl, hl⟩

/-- What is fetched lies inside memory. -/
theorem width_le_of_fetch_ok (h : s.fetch = .ok i) : s.pc + i.width ≤ s.cfg.memSize := by
  obtain ⟨mn, b1, b2, hf, -, hw, -⟩ | ⟨a, -, hf⟩ | ⟨-, hf⟩ := fetch_cases s
  · rw [hf] at h; cases h
    rwa [Instr.width, mnemonic_instr]
  · rw [hf] at h; cases h
  · rw [hf] at h; cases h

/-- Taking a truthful fault keeps the invariant. -/
theorem State.Inv.raise {e : Trap} (h : s.Inv) (hrun : s.running = true) (he : e.Legal s) : (s.raise e).Inv where
  cfg_wf := h.cfg_wf
  mem_wf := h.mem_wf
  mem_bound := h.mem_bound
  flags := h.flags
  pc_bound := h.pc_bound
  fault_legal r hr := by
    cases hr
    exact ⟨rfl, he, hrun⟩

/-- Completing an instruction that lies inside memory keeps the invariant. -/
theorem State.Inv.completes (h : s.Inv) (hfault : s.fault = none) (hw : s.pc + i.width ≤ s.cfg.memSize)
    (hc : Completes i s t) : t.Inv where
  cfg_wf := hc.cfg ▸ h.cfg_wf
  mem_wf := by
    obtain hm | ⟨a, v, -, hm⟩ := hc.mem_cases
    · exact hm ▸ h.mem_wf
    · exact hm ▸ poke_wf h.mem_wf a v
  mem_bound c hmem := by
    rw [hc.cfg]
    obtain hm | ⟨a, v, ha, hm⟩ := hc.mem_cases
    · exact h.mem_bound c (hm ▸ hmem)
    · obtain hold | hnew := poke_mem (hm ▸ hmem)
      · exact h.mem_bound c hold
      · exact hnew ▸ ha
  flags := by
    obtain ⟨-, hfl⟩ | ⟨a, b, -, hfl⟩ := hc.fl_cases
    · exact hfl ▸ h.flags
    · exact hfl ▸ legalFlags_compareFlags _ _
  pc_bound := hc.cfg ▸ hc.pc_le.trans (max_le_max_right 255 hw)
  fault_legal r hr := by
    rw [hc.fault, hfault] at hr
    cases hr

end

/-- Settles O17: a step of a core that meets the invariant raises a truthful fault, or completes an instruction that
lies inside memory. -/
theorem stepKeepsInvariant : Obligations.StepKeepsInvariant := by
  intro s t hinv hstep
  obtain ⟨hstatus, hcases⟩ := step_next_cases hstep
  obtain ⟨hfault, hrun⟩ := (status_eq_running s).1 hstatus
  obtain ⟨e, hf, rfl⟩ | ⟨i, hf, hc | ⟨e, rfl, hr⟩⟩ := hcases
  · exact hinv.raise hrun (legal_of_fetch_error hf)
  · exact hinv.completes hfault (width_le_of_fetch_ok hf) hc
  · exact hinv.raise hrun (hr.legal (hinv.memSize_le))

end Sys2Proof.Machine

/-! ### What an instruction changes in either outcome -/

namespace Sys2Proof.Machine

section
variable {i : Instr} {s t : State}

/-- An instruction changes no parameter. -/
theorem exec_cfg (h : exec i s = .next t) : t.cfg = s.cfg := by
  obtain hc | ⟨e, rfl, -⟩ := exec_next_cases h
  · exact hc.cfg
  · rfl

/-- HLT clears the running flag, and completing any other instruction leaves it alone (10_state.md R30). -/
theorem Completes.running (h : Completes i s t) : t.running = if i = .hlt then false else s.running := by
  cases h <;> simp

/-- HLT clears the running flag; no other instruction and no fault touches it (10_state.md R30). -/
theorem exec_running (h : exec i s = .next t) : t.running = if i = .hlt then false else s.running := by
  obtain hc | ⟨e, rfl, hr⟩ := exec_next_cases h
  · exact hc.running
  · have hi : i ≠ .hlt := by
      rintro rfl
      cases hr with
      | invalid _ _ r hnone => cases hnone
    rw [if_neg hi, raise_running]

/-- An instruction other than CMP leaves FL alone (10_state.md R28). -/
theorem exec_fl (h : exec i s = .next t) (hi : ∀ ra rb, i ≠ .cmp ra rb) : t.fl = s.fl := by
  obtain hc | ⟨e, rfl, -⟩ := exec_next_cases h
  · obtain ⟨-, hfl⟩ | ⟨a, b, rfl, -⟩ := hc.fl_cases
    · exact hfl
    · exact absurd rfl (hi _ _)
  · rfl

/-- Setting the pc changes no register. -/
@[simp] theorem reg_with_pc (s : State) (n : Nat) (r : Reg) : ({ s with pc := n } : State).reg r = s.reg r := rfl

/-- The register numbered 7 is SP (10_state.md R22). -/
@[simp] theorem val_eq_seven {r : Reg} : r.val = 7 ↔ r = spReg := (Fin.ext_iff (a := r) (b := spReg)).symm

/-- Completing an instruction changes no register but those R38 lists as written: in every case the result is the state
after writes to listed registers, SP included. -/
theorem Completes.reg (h : Completes i s t) {r : Reg} (hr : r.val ∉ writtenRegs i) : t.reg r = s.reg r := by
  cases h <;> simp_all [writtenRegs, reg_setReg, reg_decSp, reg_incSp, Fin.val_inj]

/-- An instruction changes no register but those R38 lists as written. -/
theorem exec_reg (h : exec i s = .next t) {r : Reg} (hr : r.val ∉ writtenRegs i) : t.reg r = s.reg r := by
  obtain hc | ⟨e, rfl, -⟩ := exec_next_cases h
  · exact hc.reg hr
  · rfl

/-! ### The output -/

/-- The events an instruction emits: one for PRN and PRA of a register, none otherwise (43_output.md R121, R122). -/
def emitted (i : Instr) (s : State) : List OutputEvent :=
  match i with
  | .prn ra => ((regOperand ra).toOption.map fun a => .dec (s.reg a)).toList
  | .pra ra => ((regOperand ra).toOption.map fun a => .char (s.reg a)).toList
  | _ => []

@[simp] theorem emitted_prn (a : Reg) : emitted (.prn a.byte) s = [.dec (s.reg a)] := by
  simp [emitted, Except.toOption]

@[simp] theorem emitted_pra (a : Reg) : emitted (.pra a.byte) s = [.char (s.reg a)] := by
  simp [emitted, Except.toOption]

/-- Only PRN and PRA of a register emit. -/
theorem emitted_eq_nil (hi : ∀ a : Reg, i ≠ .prn a.byte ∧ i ≠ .pra a.byte) : emitted i s = [] := by
  cases i with
  | prn ra =>
    obtain ⟨a, rfl⟩ | ⟨-, he⟩ := regOperand_cases ra
    · exact absurd rfl (hi a).1
    · simp [emitted, he, Except.toOption]
  | pra ra =>
    obtain ⟨a, rfl⟩ | ⟨-, he⟩ := regOperand_cases ra
    · exact absurd rfl (hi a).2
    · simp [emitted, he, Except.toOption]
  | _ => rfl

/-- An instruction that raises emits nothing. -/
theorem Raises.emitted {e : Trap} (h : Raises i s e) : emitted i s = [] := by
  refine emitted_eq_nil fun a => ⟨?_, ?_⟩
  · rintro rfl
    cases h with
    | invalid _ _ r h => simp [Instr.firstInvalid, Instr.regOperands] at h
  · rintro rfl
    cases h with
    | invalid _ _ r h => simp [Instr.firstInvalid, Instr.regOperands] at h

/-- Completing an instruction appends what it emits. -/
theorem Completes.out (h : Completes i s t) : t.out = s.out ++ emitted i s := by
  cases h with
  | prn _ a => simp
  | pra _ a => simp
  | _ => simp [Machine.emitted]

/-- An instruction appends to the output what it emits, and does nothing else to it (10_state.md R32). -/
theorem exec_out (h : exec i s = .next t) : t.out = s.out ++ emitted i s := by
  obtain hc | ⟨e, rfl, hr⟩ := exec_next_cases h
  · exact hc.out
  · rw [hr.emitted, List.append_nil, raise_out]

end

/-- `load` changes memory alone, so neither the running flag nor the output (70_reset_and_hazards.md R241). -/
theorem load_frame {s t : State} {image : List Byte} (h : s.load image = .ok t) :
    t.running = s.running ∧ t.out = s.out := by
  unfold State.load at h
  split at h
  · cases h
  · cases h
    exact ⟨rfl, rfl⟩

section
variable {i : Instr} {s t s' t' : State} {a b : Reg}

/-! ### What an instruction depends on -/

/-- The two states agree on all that `i` can read: they differ at most in registers that R38 does not list as read, in
FL if `i` is no conditional jump (R28), and in the output (R32). -/
structure SameReads (i : Instr) (s s' : State) : Prop where
  cfg : s'.cfg = s.cfg
  mem : s'.mem = s.mem
  pc : s'.pc = s.pc
  running : s'.running = s.running
  fault : s'.fault = s.fault
  regs : ∀ r : Reg, r.val ∈ readRegs i → s'.reg r = s.reg r
  fl : readsFlags i = true → s'.fl = s.fl

/-- The two results of `i` agree on memory, on the pc and on the registers that R38 lists as written. -/
structure SameWrites (i : Instr) (t t' : State) : Prop where
  mem : t'.mem = t.mem
  pc : t'.pc = t.pc
  regs : ∀ r : Reg, r.val ∈ writtenRegs i → t'.reg r = t.reg r

/-- The only register an instruction reads. -/
theorem SameReads.one (h : SameReads i s s') (hi : readRegs i = [a.byte.toNat]) : s'.reg a = s.reg a :=
  h.regs a (by simp [hi])

/-- The two registers an instruction reads. -/
theorem SameReads.two (h : SameReads i s s') (hi : readRegs i = [a.byte.toNat, b.byte.toNat]) :
    s'.reg a = s.reg a ∧ s'.reg b = s.reg b :=
  ⟨h.regs a (by simp [hi]), h.regs b (by simp [hi])⟩

/-- What is computed of the two registers an instruction reads. -/
theorem SameReads.map₂ {α : Type} (h : SameReads i s s') (hi : readRegs i = [a.byte.toNat, b.byte.toNat])
    (f : Byte → Byte → α) : f (s'.reg a) (s'.reg b) = f (s.reg a) (s.reg b) := by
  obtain ⟨ha, hb⟩ := h.two hi
  rw [ha, hb]

/-- The address a push writes to depends on SP alone. -/
theorem pushAddress_congr (h : s'.sp = s.sp) : s'.pushAddress = s.pushAddress := by
  rw [pushAddress_eq, pushAddress_eq, h]

/-- Whether an instruction raises, and what, depends on no register but those R38 lists as read. -/
theorem SameReads.raises {e : Trap} (hs : SameReads i s s') (h : Raises i s e) : Raises i s' e := by
  cases h with
  | invalid _ _ r h => exact .invalid i s' r h
  | ld _ a b h =>
    have hb : s'.address b = s.address b := congrArg BitVec.toNat (hs.one rfl)
    exact hb ▸ .ld s' a b (by rwa [hb, hs.cfg])
  | st _ a b h =>
    have ha : s'.address a = s.address a := congrArg BitVec.toNat (hs.two (b := b) rfl).1
    exact ha ▸ .st s' a b (by rwa [ha, hs.cfg])
  | push _ a h =>
    have hp := pushAddress_congr (hs.two (a := spReg) (b := a) rfl).1
    exact hp ▸ .push s' a (by rwa [hp, hs.cfg])
  | pop _ d h =>
    have hsp : s'.sp = s.sp := hs.one (a := spReg) rfl
    exact hsp ▸ .pop s' d (by rwa [hsp, hs.cfg])
  | div _ a b h => exact hs.pc ▸ .div s' a b (by rwa [(hs.two (a := a) rfl).2])
  | mod _ a b h => exact hs.pc ▸ .mod s' a b (by rwa [(hs.two (a := a) rfl).2])
  | callReturn _ a h => exact hs.pc ▸ .callReturn s' a (by rwa [hs.pc])
  | call _ a hr h =>
    have hp := pushAddress_congr (hs.two (a := spReg) (b := a) rfl).1
    exact hp ▸ .call s' a (by rwa [hs.pc]) (by rwa [hp, hs.cfg])
  | ret _ h =>
    have hsp : s'.sp = s.sp := hs.one (a := spReg) rfl
    exact hsp ▸ .ret s' (by rwa [hsp, hs.cfg])

/-- A register reads the same after the same write to two states, if it did before or is the one written. -/
theorem reg_setReg_congr {q : Reg} {v v' : Byte} (hv : v' = v) (hq : q ≠ a → s'.reg q = s.reg q) :
    (s'.setReg a v').reg q = (s.setReg a v).reg q := by
  rw [reg_setReg, reg_setReg, hv]
  split
  · rfl
  · exact hq ‹_›

/-- The same of SP moved down. -/
theorem reg_decSp_congr {q : Reg} (hsp : s'.sp = s.sp) (hq : q ≠ spReg → s'.reg q = s.reg q) :
    s'.decSp.reg q = s.decSp.reg q := reg_setReg_congr (congrArg (· - 1) hsp) hq

/-- The same of SP moved up. -/
theorem reg_incSp_congr {q : Reg} (hsp : s'.sp = s.sp) (hq : q ≠ spReg → s'.reg q = s.reg q) :
    s'.incSp.reg q = s.incSp.reg q := reg_setReg_congr (congrArg (· + 1) hsp) hq

/-- The shape of LDI, LD and the ALU's instructions: the same value written to one register. -/
theorem SameReads.setReg (hs : SameReads i s s') (hw : writtenRegs i = [a.byte.toNat]) {v v' : Byte} (hv : v' = v)
    (n : Nat) : SameWrites i ((s.setReg a v).advance n) ((s'.setReg a v').advance n) where
  mem := hs.mem
  pc := congrArg (· + n) hs.pc
  regs r hr := by
    have hra : r = a := by simpa [hw, Fin.val_inj] using hr
    exact reg_setReg_congr hv (absurd hra)

/-- The shape of the instructions that write no register and fall through. -/
theorem SameReads.advance (hs : SameReads i s s') (hw : writtenRegs i = []) (n : Nat) :
    SameWrites i (s.advance n) (s'.advance n) where
  mem := hs.mem
  pc := congrArg (· + n) hs.pc
  regs r hr := by simp [hw] at hr

/-- The shape of the jumps that are taken. -/
theorem SameReads.jump (hs : SameReads i s s') (hw : writtenRegs i = []) {v v' : Byte} (hv : v' = v) :
    SameWrites i (s.jump v) (s'.jump v') where
  mem := hs.mem
  pc := congrArg BitVec.toNat hv
  regs r hr := by simp [hw] at hr

/-- The shape of the conditional jumps. -/
theorem SameReads.branch (hs : SameReads i s s') (hw : writtenRegs i = []) (hr : readRegs i = [a.byte.toNat])
    (hf : readsFlags i = true) (c : Byte → Bool) :
    SameWrites i (if c s.fl then s.jump (s.reg a) else s.advance 2)
      (if c s'.fl then s'.jump (s'.reg a) else s'.advance 2) := by
  rw [hs.fl hf]
  split
  · exact hs.jump hw (hs.one hr)
  · exact hs.advance hw 2

/-- What an instruction that completes does depends on no register but those R38 lists as read, and on FL only in a
conditional jump (R28). -/
theorem SameReads.completes (hs : SameReads i s s') (h : Completes i s t) :
    ∃ t', Completes i s' t' ∧ SameWrites i t t' := by
  cases h with
  | hlt => exact ⟨_, .hlt s', hs.mem, hs.pc, fun _ h => by cases h⟩
  | nop => exact ⟨_, .nop s', hs.advance rfl 1⟩
  | ldi _ d v => exact ⟨_, .ldi s' d v, hs.setReg rfl rfl 3⟩
  | ld _ a b h =>
    have hb : s'.reg b = s.reg b := hs.one rfl
    have hv : Memory.peek s'.mem (s'.address b) = Memory.peek s.mem (s.address b) := by
      rw [State.address, hb, hs.mem, State.address]
    exact ⟨_, .ld s' a b (by rwa [State.address, hb, hs.cfg]), hs.setReg rfl hv 3⟩
  | st _ a b h =>
    obtain ⟨ha, hb⟩ := hs.two (a := a) (b := b) rfl
    refine ⟨_, .st s' a b (by rwa [State.address, ha, hs.cfg]), ?_, congrArg (· + 3) hs.pc, fun _ h => by cases h⟩
    simp [State.address, ha, hb, hs.mem]
  | push _ a h =>
    obtain ⟨hsp, ha⟩ := hs.two (a := spReg) (b := a) rfl
    have hp := pushAddress_congr hsp
    have hreg : s'.decSp.reg a = s.decSp.reg a := reg_decSp_congr hsp fun _ => ha
    refine ⟨_, .push s' a (by rwa [hp, hs.cfg]), ?_, congrArg (· + 2) hs.pc, fun r hr => ?_⟩
    · simp [hp, hreg, hs.mem]
    · have hr : r = spReg := by simpa [writtenRegs] using hr
      exact reg_decSp_congr hsp (absurd hr)
  | pop _ d h =>
    have hsp : s'.sp = s.sp := hs.one (a := spReg) rfl
    have hv : Memory.peek s'.mem s'.sp.toNat = Memory.peek s.mem s.sp.toNat := by rw [hsp, hs.mem]
    refine ⟨_, .pop s' d (by rwa [hsp, hs.cfg]), hs.mem, congrArg (· + 2) hs.pc, fun r hr => ?_⟩
    have hr : r = d ∨ r = spReg := by simpa [writtenRegs, Fin.val_inj] using hr
    exact reg_incSp_congr (reg_setReg_congr hv fun _ => hsp) fun hne =>
      reg_setReg_congr hv (absurd (hr.resolve_right hne))
  | prn _ a => exact ⟨_, .prn s' a, hs.mem, congrArg (· + 2) hs.pc, fun _ h => by cases h⟩
  | pra _ a => exact ⟨_, .pra s' a, hs.mem, congrArg (· + 2) hs.pc, fun _ h => by cases h⟩
  | add _ a b => exact ⟨_, .add s' a b, hs.setReg rfl (hs.map₂ rfl aluAdd) 3⟩
  | sub _ a b => exact ⟨_, .sub s' a b, hs.setReg rfl (hs.map₂ rfl aluSub) 3⟩
  | mul _ a b => exact ⟨_, .mul s' a b, hs.setReg rfl (hs.map₂ rfl aluMul) 3⟩
  | and _ a b => exact ⟨_, .and s' a b, hs.setReg rfl (hs.map₂ rfl aluAnd) 3⟩
  | or _ a b => exact ⟨_, .or s' a b, hs.setReg rfl (hs.map₂ rfl aluOr) 3⟩
  | xor _ a b => exact ⟨_, .xor s' a b, hs.setReg rfl (hs.map₂ rfl aluXor) 3⟩
  | shl _ a b => exact ⟨_, .shl s' a b, hs.setReg rfl (hs.map₂ rfl aluShl) 3⟩
  | shr _ a b => exact ⟨_, .shr s' a b, hs.setReg rfl (hs.map₂ rfl aluShr) 3⟩
  | div _ a b v h =>
    exact ⟨_, .div s' a b v (by rw [hs.pc, ← h]; exact hs.map₂ rfl (aluDiv s.pc)), hs.setReg rfl rfl 3⟩
  | mod _ a b v h =>
    exact ⟨_, .mod s' a b v (by rw [hs.pc, ← h]; exact hs.map₂ rfl (aluMod s.pc)), hs.setReg rfl rfl 3⟩
  | cmp _ a b => exact ⟨_, .cmp s' a b, hs.mem, congrArg (· + 3) hs.pc, fun _ h => by cases h⟩
  | inc _ a => exact ⟨_, .inc s' a, hs.setReg rfl (congrArg aluInc (hs.one rfl)) 2⟩
  | dec _ a => exact ⟨_, .dec s' a, hs.setReg rfl (congrArg aluDec (hs.one rfl)) 2⟩
  | not _ a => exact ⟨_, .not s' a, hs.setReg rfl (congrArg aluNot (hs.one rfl)) 2⟩
  | call _ a hr h =>
    obtain ⟨hsp, ha⟩ := hs.two (a := spReg) (b := a) rfl
    have hp := pushAddress_congr hsp
    have hreg : s'.decSp.reg a = s.decSp.reg a := reg_decSp_congr hsp fun _ => ha
    refine ⟨_, .call s' a (by rwa [hs.pc]) (by rwa [hp, hs.cfg]), ?_, congrArg BitVec.toNat hreg, fun r hr => ?_⟩
    · simp [hp, hs.mem, hs.pc]
    · have hr : r = spReg := by simpa [writtenRegs] using hr
      exact reg_decSp_congr hsp (absurd hr)
  | ret _ h =>
    have hsp : s'.sp = s.sp := hs.one (a := spReg) rfl
    refine ⟨_, .ret s' (by rwa [hsp, hs.cfg]), hs.mem, ?_, fun r hr => ?_⟩
    · simp [hsp, hs.mem]
    · have hr : r = spReg := by simpa [writtenRegs] using hr
      exact reg_incSp_congr hsp (absurd hr)
  | jmp _ a => exact ⟨_, .jmp s' a, hs.jump rfl (hs.one rfl)⟩
  | jeq _ a => exact ⟨_, .jeq s' a, hs.branch rfl rfl rfl condEq⟩
  | jne _ a => exact ⟨_, .jne s' a, hs.branch rfl rfl rfl condNe⟩
  | jgt _ a => exact ⟨_, .jgt s' a, hs.branch rfl rfl rfl condGt⟩
  | jlt _ a => exact ⟨_, .jlt s' a, hs.branch rfl rfl rfl condLt⟩
  | jle _ a => exact ⟨_, .jle s' a, hs.branch rfl rfl rfl condLe⟩
  | jge _ a => exact ⟨_, .jge s' a, hs.branch rfl rfl rfl condGe⟩
  | int _ b => exact ⟨_, .int s' b, hs.advance rfl 2⟩
  | iret => exact ⟨_, .iret s', hs.advance rfl 1⟩

/-! ### Two runs of one instruction -/

/-- Two states that agree on all an instruction reads: it completes in both alike, or raises the same in both. -/
theorem SameReads.exec_cases (hs : SameReads i s s') (h : exec i s = .next t) (h' : exec i s' = .next t') :
    (Completes i s t ∧ Completes i s' t' ∧ SameWrites i t t') ∨ ∃ e, t = s.raise e ∧ t' = s'.raise e := by
  obtain hc | ⟨e, rfl, hr⟩ := exec_next_cases h
  · obtain ⟨u, hu, hw⟩ := hs.completes hc
    obtain rfl : u = t' := by simpa [exec_of_completes hu] using h'
    exact .inl ⟨hc, hu, hw⟩
  · obtain rfl : s'.raise e = t' := by simpa [exec_of_raises (hs.raises hr)] using h'
    exact .inr ⟨e, rfl, rfl⟩

/-- Two states that agree on all an instruction reads are left with differences in registers, FL and output alone. -/
theorem SameReads.exec_eq (hs : SameReads i s s') (h : exec i s = .next t) (h' : exec i s' = .next t') :
    t' = { t with regs := t'.regs, fl := t'.fl, out := t'.out } := by
  have hcfg : t'.cfg = t.cfg := by rw [exec_cfg h, exec_cfg h', hs.cfg]
  have hrun : t'.running = t.running := by rw [exec_running h, exec_running h', hs.running]
  obtain ⟨hmem, hpc, hfault⟩ : t'.mem = t.mem ∧ t'.pc = t.pc ∧ t'.fault = t.fault := by
    obtain ⟨hc, hc', hw⟩ | ⟨e, rfl, rfl⟩ := hs.exec_cases h h'
    · exact ⟨hw.mem, hw.pc, by rw [hc.fault, hc'.fault, hs.fault]⟩
    · exact ⟨hs.mem, hs.pc, by rw [raise_fault, raise_fault, hs.pc]⟩
  rw [← hcfg, ← hmem, ← hpc, ← hrun, ← hfault]

/-- States with the same registers are left with the same registers. -/
theorem SameReads.exec_regs (hs : SameReads i s s') (h : exec i s = .next t) (h' : exec i s' = .next t')
    (hregs : s'.regs = s.regs) : t'.regs = t.regs := by
  obtain ⟨-, -, hw⟩ | ⟨e, rfl, rfl⟩ := hs.exec_cases h h'
  · have hreg (r : Reg) : t'.reg r = t.reg r := by
      by_cases hr : r.val ∈ writtenRegs i
      · exact hw.regs r hr
      · rw [exec_reg h hr, exec_reg h' hr, State.reg, hregs, State.reg]
    exact Vector.ext fun n hn => hreg ⟨n, hn⟩
  · exact hregs

/-- A CMP that completes leaves the same FL in both, whatever FL was. -/
theorem SameReads.cmp_fl {ra rb : Byte} (hs : SameReads (.cmp ra rb) s s') (hc : Completes (.cmp ra rb) s t)
    (hc' : Completes (.cmp ra rb) s' t') : t'.fl = t.fl := by
  obtain ⟨hi, -⟩ | ⟨a, b, hi, hfl⟩ := hc.fl_cases
  · exact absurd rfl (hi ra rb)
  · obtain ⟨rfl, rfl⟩ : ra = a.byte ∧ rb = b.byte := by simpa using hi
    obtain ⟨hi, -⟩ | ⟨a', b', hi, hfl'⟩ := hc'.fl_cases
    · exact absurd rfl (hi _ _)
    · obtain ⟨ha, hb⟩ : a.byte = a'.byte ∧ b.byte = b'.byte := by simpa using hi
      rw [hfl, hfl', ← byte_inj ha, ← byte_inj hb, hs.map₂ rfl compareFlags]

/-- States with the same FL are left with the same FL. -/
theorem SameReads.exec_fl (hs : SameReads i s s') (h : exec i s = .next t) (h' : exec i s' = .next t')
    (hfl : s'.fl = s.fl) : t'.fl = t.fl := by
  obtain ⟨hc, hc', -⟩ | ⟨e, rfl, rfl⟩ := hs.exec_cases h h'
  · obtain ⟨hi, ht⟩ | ⟨a, b, rfl, -⟩ := hc.fl_cases
    · rw [ht, Machine.exec_fl h' hi, hfl]
    · exact hs.cmp_fl hc hc'
  · exact hfl

/-- The events an instruction emits are made of registers it reads. -/
theorem SameReads.emitted (hs : SameReads i s s') : emitted i s' = emitted i s := by
  by_cases hi : ∀ a : Reg, i ≠ .prn a.byte ∧ i ≠ .pra a.byte
  · rw [emitted_eq_nil hi, emitted_eq_nil hi]
  · simp only [not_forall, not_and_or, not_not] at hi
    obtain ⟨a, rfl | rfl⟩ := hi
    · rw [emitted_prn, emitted_prn, hs.one rfl]
    · rw [emitted_pra, emitted_pra, hs.one rfl]

/-- Both outputs grow by the same events. -/
theorem SameReads.exec_out (hs : SameReads i s s') (h' : exec i s' = .next t') :
    t'.out = s'.out ++ Machine.emitted i s := by
  rw [Machine.exec_out h', hs.emitted]

end

/-! ### The registers, FL and the output -/

/-- Settles O42: registers that are not written are kept, and two states that agree on the registers read are left with
the same in those written. -/
theorem registersReadAndWritten : Obligations.RegistersReadAndWritten := by
  refine fun i s => ⟨fun t h r hr => exec_reg h hr, fun regs' t t' hregs h h' => ?_⟩
  have hs : SameReads i s { s with regs := regs' } := ⟨rfl, rfl, rfl, rfl, rfl, hregs, fun _ => rfl⟩
  constructor
  · have heq := hs.exec_eq h h'
    rwa [hs.exec_fl h h' rfl, hs.exec_out h', ← exec_out h] at heq
  · intro _ hfault r hr
    obtain ⟨-, -, hw⟩ | ⟨e, rfl, -⟩ := hs.exec_cases h h'
    · exact hw.regs r hr
    · cases hfault

/-- Settles O43: two states that differ in FL alone; only CMP writes it. -/
theorem flagsWrittenByCmpReadByJumps : Obligations.FlagsWrittenByCmpReadByJumps := by
  intro i s fl' t t' h h'
  have hs (hi : readsFlags i = false) : SameReads i s { s with fl := fl' } :=
    ⟨rfl, rfl, rfl, rfl, rfl, fun _ _ => rfl, fun hj => by rw [hi] at hj; cases hj⟩
  refine ⟨exec_fl h, ?_, fun hi => ?_⟩
  · rintro ra rb rfl - hfault
    obtain ⟨hc, hc', -⟩ | ⟨e, rfl, -⟩ := (hs rfl).exec_cases h h'
    · refine ⟨?_, (hs rfl).cmp_fl hc hc'⟩
      obtain ⟨hi, -⟩ | ⟨a, b, -, hfl⟩ := hc.fl_cases
      · exact absurd rfl (hi ra rb)
      · rw [hfl]
        exact (compareFlags_cases _ _).imp And.right (Or.imp And.right And.right)
    · cases hfault
  · have heq := (hs hi).exec_eq h h'
    rwa [(hs hi).exec_regs h h' rfl, (hs hi).exec_out h', ← exec_out h] at heq

/-- Settles O47: what an instruction appends is what it emits, and it emits the same whatever the output was. -/
theorem outputOnlyAppended : Obligations.OutputOnlyAppended := by
  refine ⟨fun _ => rfl, fun i s t t' out' h h' => ?_, fun _ _ => rfl, fun s t image h => ?_⟩
  · have hs : SameReads i s { s with out := out' } := ⟨rfl, rfl, rfl, rfl, rfl, fun _ _ => rfl, fun _ => rfl⟩
    refine ⟨emitted i s, exec_out h, ?_, ?_, ?_, emitted_eq_nil⟩
    · have heq := hs.exec_eq h h'
      rwa [hs.exec_regs h h' rfl, hs.exec_fl h h' rfl, hs.exec_out h'] at heq
    · rintro a rfl
      exact emitted_prn a
    · rintro a rfl
      exact emitted_pra a
  · exact (load_frame h).2

/-! ### The running flag, the pc and the parameters -/

/-- Settles O46: HLT alone clears the flag, and a core that steps has it set. -/
theorem onlyHltClearsRunning : Obligations.OnlyHltClearsRunning :=
  ⟨fun _ => rfl, fun _ _ _ h => exec_running h, fun _ _ => rfl, fun _ _ _ h => (load_frame h).1,
    fun s _ h => ((status_eq_running s).1 (step_next_cases h).1).2,
    fun s r h => step_of_faulted ((status_eq_faulted s r).2 h)⟩

/-- Settles O50: neither a fault nor a completed instruction touches the parameters. -/
theorem configurationNeverChanges : Obligations.ConfigurationNeverChanges := by
  intro s t h
  obtain ⟨-, ⟨e, -, rfl⟩ | ⟨i, -, hc | ⟨e, rfl, -⟩⟩⟩ := step_next_cases h
  · rfl
  · exact hc.cfg
  · rfl

/-- An instruction's bytes are as many as its width (30_encoding.md R65). -/
theorem length_encode (m : OpcodeMap) (i : Instr) : (encode m i).length = i.width := by cases i <;> rfl

/-- A conditional jump leaves the pc at the register it names or past itself (45_control_transfer.md R173). -/
theorem branch_pc (s : State) (c : Bool) (a : Reg) :
    (if c then s.jump (s.reg a) else s.advance 2).pc = ((if c then s.jump (s.reg a) else s.advance 2).reg a).toNat ∨
    (if c then s.jump (s.reg a) else s.advance 2).pc = s.pc + 2 := by
  cases c
  · exact .inr rfl
  · exact .inl rfl

/-- Settles O49: an instruction that does not fault completes, and each completion says where the pc goes. -/
theorem programCounterAfterAnInstruction : Obligations.ProgramCounterAfterAnInstruction := by
  intro i s t _ h hfault
  refine ⟨fun m => length_encode m i, ?_⟩
  obtain hc | ⟨e, rfl, -⟩ := exec_next_cases h
  · cases hc with
    | hlt => rfl
    | ret => rfl
    | call _ a => exact ⟨a, rfl, rfl⟩
    | jmp _ a => exact ⟨a, rfl, rfl⟩
    | jeq _ a => exact ⟨a, rfl, branch_pc s _ a⟩
    | jne _ a => exact ⟨a, rfl, branch_pc s _ a⟩
    | jgt _ a => exact ⟨a, rfl, branch_pc s _ a⟩
    | jlt _ a => exact ⟨a, rfl, branch_pc s _ a⟩
    | jle _ a => exact ⟨a, rfl, branch_pc s _ a⟩
    | jge _ a => exact ⟨a, rfl, branch_pc s _ a⟩
    | _ => rfl
  · cases hfault

/-! ### Reset -/

/-- Settles O14: each field of `construct()` holds R36's value by definition, the eight registers one by one. -/
theorem constructSetsResetValues : Obligations.ConstructSetsResetValues := by
  refine fun c => ⟨fun _ => rfl, ?_, rfl, rfl, rfl, rfl, rfl, rfl, rfl⟩
  change ∀ r : Reg, r ≠ 7 → (#v[0, 0, 0, 0, 0, 0, 0, 0xF4] : Vector Byte 8)[r.val] = 0
  decide

/-- `construct()` with parameters the model accepts meets the invariant. -/
theorem construct_inv {c : Config} (h : c.wf = true) : (State.construct c).Inv where
  cfg_wf := h
  mem_wf := rfl
  mem_bound _ hc := by cases hc
  flags := .inl rfl
  pc_bound := Nat.zero_le _
  fault_legal _ hr := by cases hr

/-- Settles O15: the reset state is `construct()` with the reference parameters, which the model accepts. -/
theorem resetStateMeetsInvariant : Obligations.ResetStateMeetsInvariant :=
  ⟨fun _ h => construct_inv h, construct_inv reference_wf⟩

end Sys2Proof.Machine

/-! ### The memory bus -/

namespace Sys2Proof.Machine

/-- Settles O19: both primitives compare the address itself with the number of cells. -/
theorem readIsBoundsChecked : Obligations.ReadIsBoundsChecked :=
  fun _ _ => ⟨memRead_of_lt, fun h => ⟨memRead_of_ge h, memWrite_of_ge h⟩⟩

/-- Settles O20: a write inside memory is `Memory.poke`, and committing a raise is `State.raise`. -/
theorem writeChangesExactlyOneCell : Obligations.WriteChangesExactlyOneCell := by
  refine fun s a v => ⟨fun h hwf => ?_, fun h => memWrite_of_ge h v, fun e => commit_error s e⟩
  exact ⟨Memory.poke s.mem a v, memWrite_of_lt h v, poke_wf hwf a v, peek_poke hwf a v⟩

section
variable {i : Instr} {s t : State}

/-! ### The cells an instruction stores to and loads from -/

@[simp] theorem storeAddress_st (a b : Reg) : storeAddress (.st a.byte b.byte) s = some (s.address a) := by
  simp [storeAddress, Except.toOption, pure, Except.pure]

@[simp] theorem storeAddress_push (a : Reg) : storeAddress (.push a.byte) s = some s.pushAddress := by
  simp [storeAddress, Except.toOption]

@[simp] theorem storeAddress_call (a : Reg) : storeAddress (.call a.byte) s = some s.pushAddress := by
  simp [storeAddress, Except.toOption]

@[simp] theorem loadAddress_ld (a b : Reg) : loadAddress (.ld a.byte b.byte) s = some (s.address b) := by
  simp [loadAddress, Except.toOption, pure, Except.pure]

@[simp] theorem loadAddress_pop (d : Reg) : loadAddress (.pop d.byte) s = some s.sp.toNat := by
  simp [loadAddress, Except.toOption]

/-- Where an instruction stores depends on no cell of memory. -/
@[simp] theorem storeAddress_with_mem (i : Instr) (s : State) (m : Memory) :
    storeAddress i { s with mem := m } = storeAddress i s := by cases i <;> rfl

/-- The memory `m` after `i`, run in state `s`, has stored the byte `v` in it, if `i` stores at all. -/
def afterStore (i : Instr) (s : State) (v : Byte) (m : Memory) : Memory :=
  (storeAddress i s).elim m (Memory.poke m · v)

theorem afterStore_of_some {a : Nat} (h : storeAddress i s = some a) (v : Byte) (m : Memory) :
    afterStore i s v m = Memory.poke m a v := by rw [afterStore, h, Option.elim_some]

/-- A store leaves every other cell as it was. -/
theorem peek_afterStore_of_ne {m : Memory} {x : Nat} (hwf : Memory.wf m = true) (v : Byte)
    (hx : storeAddress i s ≠ some x) : Memory.peek (afterStore i s v m) x = Memory.peek m x := by
  cases h : storeAddress i s with
  | none => rw [afterStore, h, Option.elim_none]
  | some a =>
    have hne : x ≠ a := fun e => hx (e ▸ h)
    rw [afterStore_of_some h, peek_poke hwf, if_neg hne]

/-- The cell stored to reads as stored. -/
theorem peek_afterStore_self {m : Memory} {x : Nat} (hwf : Memory.wf m = true) (v : Byte)
    (hx : storeAddress i s = some x) : Memory.peek (afterStore i s v m) x = v := by
  rw [afterStore_of_some hx, peek_poke_self m hwf]

/-! ### What an instruction does with another memory -/

/-- The memory `m` reads as that of `s` does where `i` loads from. -/
def AgreesWhereLoaded (i : Instr) (s : State) (m : Memory) : Prop :=
  ∀ x, loadAddress i s = some x → Memory.peek m x = Memory.peek s.mem x

/-- Whether an instruction raises, and what, depends on no cell of memory. -/
theorem Raises.with_mem {e : Trap} (h : Raises i s e) (m : Memory) : Raises i { s with mem := m } e := by
  cases h with
  | invalid _ _ r h => exact .invalid _ _ r h
  | ld _ a b h => exact .ld _ a b h
  | st _ a b h => exact .st _ a b h
  | push _ a h => exact .push _ a h
  | pop _ d h => exact .pop _ d h
  | div _ a b h => exact .div _ a b h
  | mod _ a b h => exact .mod _ a b h
  | callReturn _ a h => exact .callReturn _ a h
  | call _ a hr h => exact .call _ a hr h
  | ret _ h => exact .ret _ h

/-- All that taking `s` to `t` by `i` does to memory is to store one byte at the store address of `i`, if it has one; and
with any memory that agrees where `i` loads from it does the same, the byte stored included. -/
def StoresAlike (i : Instr) (s t : State) : Prop :=
  ∃ v, t.mem = afterStore i s v s.mem ∧
    ∀ m, AgreesWhereLoaded i s m → Completes i { s with mem := m } { t with mem := afterStore i s v m }

/-- An instruction that does the same with every memory stores nothing. -/
theorem storesAlike_of_none (hs : storeAddress i s = none) (hmem : t.mem = s.mem)
    (h : ∀ m, AgreesWhereLoaded i s m → Completes i { s with mem := m } { t with mem := m }) : StoresAlike i s t := by
  have hm (m : Memory) : afterStore i s 0 m = m := by rw [afterStore, hs, Option.elim_none]
  refine ⟨0, by rw [hm, hmem], fun m hagree => ?_⟩
  rw [hm]
  exact h m hagree

/-- The shape of the conditional jumps. -/
theorem storesAlike_branch (hs : storeAddress i s = none) (c : Byte → Bool) (a : Reg)
    (h : ∀ s : State, Completes i s (if c s.fl then s.jump (s.reg a) else s.advance 2)) :
    StoresAlike i s (if c s.fl then s.jump (s.reg a) else s.advance 2) := by
  refine storesAlike_of_none hs (by simp) fun m _ => ?_
  have hm := h { s with mem := m }
  rw [ite_jump_advance] at hm ⊢
  exact hm

/-- What an instruction that completes does depends on no cell but the one it loads from. -/
theorem Completes.storesAlike (h : Completes i s t) : StoresAlike i s t := by
  cases h with
  | ld _ a b h =>
    refine storesAlike_of_none rfl rfl fun m hm => ?_
    have hv := hm _ (loadAddress_ld a b)
    exact hv ▸ .ld { s with mem := m } a b h
  | pop _ d h =>
    refine storesAlike_of_none rfl rfl fun m hm => ?_
    have hv := hm _ (loadAddress_pop d)
    exact hv ▸ .pop { s with mem := m } d h
  | ret _ h =>
    refine storesAlike_of_none rfl rfl fun m hm => ?_
    have hv := hm _ rfl
    exact hv ▸ .ret { s with mem := m } h
  | st _ a b h =>
    refine ⟨s.reg b, (afterStore_of_some (storeAddress_st a b) _ _).symm, fun m _ => ?_⟩
    rw [afterStore_of_some (storeAddress_st a b)]
    exact .st { s with mem := m } a b h
  | push _ a h =>
    refine ⟨s.decSp.reg a, (afterStore_of_some (storeAddress_push a) _ _).symm, fun m _ => ?_⟩
    rw [afterStore_of_some (storeAddress_push a)]
    exact .push { s with mem := m } a h
  | call _ a hr h =>
    refine ⟨narrow (s.pc + 2), (afterStore_of_some (storeAddress_call a) _ _).symm, fun m _ => ?_⟩
    rw [afterStore_of_some (storeAddress_call a)]
    exact .call { s with mem := m } a hr h
  | jeq _ a => exact storesAlike_branch rfl condEq a (.jeq · a)
  | jne _ a => exact storesAlike_branch rfl condNe a (.jne · a)
  | jgt _ a => exact storesAlike_branch rfl condGt a (.jgt · a)
  | jlt _ a => exact storesAlike_branch rfl condLt a (.jlt · a)
  | jle _ a => exact storesAlike_branch rfl condLe a (.jle · a)
  | jge _ a => exact storesAlike_branch rfl condGe a (.jge · a)
  | div _ a b v h => exact storesAlike_of_none rfl rfl fun m _ => .div { s with mem := m } a b v h
  | mod _ a b v h => exact storesAlike_of_none rfl rfl fun m _ => .mod { s with mem := m } a b v h
  | _ => exact storesAlike_of_none rfl rfl fun m _ => by constructor

/-- An instruction leaves every cell as it was but the one at its store address (20_memory.md R41, R48). -/
theorem exec_peek {x : Nat} (h : exec i s = .next t) (hwf : Memory.wf s.mem = true) (hx : storeAddress i s ≠ some x) :
    Memory.peek t.mem x = Memory.peek s.mem x := by
  obtain hc | ⟨e, rfl, -⟩ := exec_next_cases h
  · obtain ⟨v, hmem, -⟩ := hc.storesAlike
    rw [hmem, peek_afterStore_of_ne hwf v hx]
  · rfl

end

/-- Settles O44: an instruction that completes stores at its store address alone, and one that raises stores nothing. -/
theorem memoryChangesOnlyAtTheStoreAddress : Obligations.MemoryChangesOnlyAtTheStoreAddress :=
  fun _ _ _ hwf h _ hx => exec_peek h hwf hx

/-- Settles O45: with the other memory the instruction completes alike, storing the same byte, or raises the same. -/
theorem dataReadsAtMostOneCell : Obligations.DataReadsAtMostOneCell := by
  intro i s m t t' hagree h h'
  have hother (hwf : Memory.wf m = true) (x : Nat) (hx : storeAddress i s ≠ some x) :
      Memory.peek t'.mem x = Memory.peek m x := exec_peek h' hwf (by rwa [storeAddress_with_mem])
  obtain hc | ⟨e, rfl, hr⟩ := exec_next_cases h
  · obtain ⟨v, hmem, hsame⟩ := hc.storesAlike
    obtain rfl : { t with mem := afterStore i s v m } = t' := by
      simpa [exec_of_completes (hsame m hagree)] using h'
    refine ⟨rfl, fun hwf hwf' => ⟨hother hwf', fun _ _ x hx => ?_, fun hs ht => ?_⟩⟩
    · rw [hmem, peek_afterStore_self hwf v hx]
      exact peek_afterStore_self hwf' v hx
    · exact absurd (hc.fault.trans hs) ht
  · obtain rfl : State.raise { s with mem := m } e = t' := by
      simpa [exec_of_raises (hr.with_mem m)] using h'
    exact ⟨rfl, fun _ hwf' => ⟨hother hwf', (fun _ ht => nomatch ht), fun _ _ => rfl⟩⟩

/-! ### The whole address space -/

/-- With 256 cells a byte is an address inside memory, so an instruction that raises `OutOfBounds` is a CALL whose return
address fits no byte (20_memory.md R45, 45_control_transfer.md R162). -/
theorem Raises.call_of_outOfBounds {i : Instr} {s : State} {e : Trap} (h : Raises i s e) (hsize : s.cfg.memSize = 256)
    (hkind : e.kind = .outOfBounds) : (∃ ra, i = .call ra) ∧ e.value = s.pc + 2 ∧ 255 < s.pc + 2 := by
  have inside (v : Byte) : ¬ s.cfg.memSize ≤ v.toNat := by have := v.isLt; omega
  cases h with
  | invalid => cases hkind
  | div => cases hkind
  | mod => cases hkind
  | ld _ a b h => exact absurd h (inside _)
  | st _ a b h => exact absurd h (inside _)
  | push _ a h => exact absurd h (inside _)
  | pop _ d h => exact absurd h (inside _)
  | call _ a hr h => exact absurd h (inside _)
  | ret _ h => exact absurd h (inside _)
  | callReturn _ a h => exact ⟨⟨_, rfl⟩, rfl, h⟩

/-- Settles O51: the record is that of the trap the instruction raised. -/
theorem noDataAccessOutOfBoundsWith256Cells : Obligations.NoDataAccessOutOfBoundsWith256Cells := by
  intro i s t r hsize hfault h hr hkind
  obtain hc | ⟨e, rfl, he⟩ := exec_next_cases h
  · rw [hc.fault, hfault] at hr
    cases hr
  · cases hr
    exact he.call_of_outOfBounds hsize hkind

/-! ### Self-modifying code -/

/-- Without the prefetch, a one-byte instruction is fetched from its opcode byte alone (30_encoding.md R73). -/
theorem fetch_of_width_one {s : State} {mn : Mnemonic} (h0 : s.pc < s.cfg.memSize)
    (hp : s.cfg.operandPrefetch = false) (hl : s.cfg.opcodeMap.lookup (Memory.peek s.mem s.pc) = some mn)
    (hw : mn.width = 1) : s.fetch = .ok (mn.instr 0 0) := by
  rw [fetch_of_lookup_some h0 (by simp [hp]) hl, hw]
  rfl

/-- Settles O55: the ST leaves the pc at the cell it wrote, whose byte is the opcode that the next step fetches. -/
theorem storeSeenByTheNextFetch : Obligations.StoreSeenByTheNextFetch := by
  intro s a b mn hwf hrun hp ha h3 hl hw
  have hpc : s.pc + 3 = s.address a := ha.symm
  have haddr : s.address a < s.cfg.memSize := hpc ▸ h3
  refine ⟨_, exec_of_completes (.st s a b haddr), step_of_fetch_ok hrun (fetch_of_width_one h3 hp ?_ hw)⟩
  rw [advance_pc, setCell_pc, hpc, advance_mem, setCell_mem, peek_poke_self s.mem hwf]
  exact hl

end Sys2Proof.Machine

/-! ### Decoding and encoding -/

namespace Sys2Proof

/-- The operand bytes of the instruction a mnemonic makes are those its format has (30_encoding.md R61). -/
theorem operandBytes_instr (mn : Mnemonic) (b1 b2 : Byte) :
    (mn.instr b1 b2).operandBytes = [b1, b2].take mn.format.operandCount := by cases mn <;> rfl

/-- An instruction is what its mnemonic makes of its operand bytes (30_encoding.md R60). -/
theorem instr_operandBytes (i : Instr) :
    i.mnemonic.instr (i.operandBytes.getD 0 0) (i.operandBytes.getD 1 0) = i := by cases i <;> rfl

/-- An instruction is its opcode byte and its operand bytes wide (30_encoding.md R65). -/
theorem width_eq_length_operandBytes (i : Instr) : i.width = i.operandBytes.length + 1 :=
  (Machine.length_encode .default i).symm

/-- A mnemonic takes the operand bytes of its instruction off the front of the bytes. -/
theorem decodeOperands_operandBytes (i : Instr) (rest : List Byte) :
    decodeOperands i.mnemonic (i.operandBytes ++ rest) = .ok (i, rest) := by cases i <;> rfl

/-- The instruction a mnemonic answers has that mnemonic, and its operand bytes are all that was taken. -/
theorem of_decodeOperands_eq_ok {mn : Mnemonic} {bytes rest : List Byte} {i : Instr}
    (h : decodeOperands mn bytes = .ok (i, rest)) : i.mnemonic = mn ∧ bytes = i.operandBytes ++ rest := by
  unfold decodeOperands at h
  split at h
  case h_1 hn =>
    cases h
    exact ⟨Machine.mnemonic_instr mn 0 0, by rw [operandBytes_instr, hn]; rfl⟩
  case h_2 b1 _ hn =>
    cases h
    exact ⟨Machine.mnemonic_instr mn b1 0, by rw [operandBytes_instr, hn]; rfl⟩
  case h_4 b1 b2 _ h0 h1 =>
    cases h
    have hn : 2 ≤ mn.format.operandCount := Nat.one_lt_iff_ne_zero_and_ne_one.2 ⟨h0, h1⟩
    exact ⟨Machine.mnemonic_instr mn b1 b2, by rw [operandBytes_instr, List.take_of_length_le hn]; rfl⟩
  all_goals cases h

/-- A known mnemonic may miss an operand byte, and is never unimplemented. -/
theorem decodeOperands_ne_unimplemented (mn : Mnemonic) (bytes : List Byte) (op : Byte) :
    decodeOperands mn bytes ≠ .error (.unimplementedOpcode op) := by
  unfold decodeOperands
  split <;> simp

/-- A listed opcode byte: what is left to decode is the operand bytes (30_encoding.md R72). -/
theorem decode_cons_of_lookup_some {m : OpcodeMap} {op : Byte} {mn : Mnemonic} (h : m.lookup op = some mn)
    (rest : List Byte) : decode m (op :: rest) = decodeOperands mn rest := by simp only [decode, h]

/-- An unlisted opcode byte is rejected by name (30_encoding.md R67). -/
theorem decode_cons_of_lookup_none {m : OpcodeMap} {op : Byte} (h : m.lookup op = none) (rest : List Byte) :
    decode m (op :: rest) = .error (.unimplementedOpcode op) := by simp only [decode, h]

/-- What decodes is the instruction's encoding and what is left, and the map answers the instruction's mnemonic. -/
theorem of_decode_eq_ok {m : OpcodeMap} {bytes rest : List Byte} {i : Instr} (h : decode m bytes = .ok (i, rest)) :
    m.lookup (m.byteOf i.mnemonic) = some i.mnemonic ∧ bytes = encode m i ++ rest := by
  cases bytes with
  | nil => cases h
  | cons op tail =>
    cases hl : m.lookup op with
    | none => rw [decode_cons_of_lookup_none hl] at h; cases h
    | some mn =>
      rw [decode_cons_of_lookup_some hl] at h
      obtain ⟨rfl, rfl⟩ := of_decodeOperands_eq_ok h
      obtain rfl := byteOf_of_lookup hl
      exact ⟨hl, rfl⟩

/-- Settles O2: the lookup gives the mnemonic back, and the mnemonic takes its operand bytes. -/
theorem decodeOfEncodeIsTheInstruction : Obligations.DecodeOfEncodeIsTheInstruction := fun _ hm i rest =>
  (decode_cons_of_lookup_some (lookup_byteOf hm i.mnemonic) _).trans (decodeOperands_operandBytes i rest)

/-- Settles O3: the lookup answers only a mnemonic whose byte it is, and the operand bytes are taken as they stand. -/
theorem decodedBytesAreTheEncoding : Obligations.DecodedBytesAreTheEncoding := by
  intro m bytes i rest h
  obtain ⟨-, rfl⟩ := of_decode_eq_ok h
  exact ⟨rfl, by rw [List.length_append, Machine.length_encode]⟩

/-- Settles O4: with a mnemonic, only an operand byte can be missing. -/
theorem decoderRejectsExactlyUnlistedOpcodes : Obligations.DecoderRejectsExactlyUnlistedOpcodes := by
  intro m op rest
  rw [← lookup_eq_none]
  refine ⟨fun h => ?_, fun h => decode_cons_of_lookup_none h rest⟩
  cases hl : m.lookup op with
  | none => rfl
  | some mn =>
    rw [decode_cons_of_lookup_some hl] at h
    exact absurd h (decodeOperands_ne_unimplemented mn rest op)

/-- Settles O1: the decoder evaluated on each of the ten words. -/
theorem opcodeTableWordsDecode : Obligations.OpcodeTableWordsDecode := by
  unfold Obligations.OpcodeTableWordsDecode
  decide

/-- Settles O5: the lookup evaluated on each of the 256 bytes. -/
theorem illegalBytesOfTheDefaultMap : Obligations.IllegalBytesOfTheDefaultMap := by
  unfold Obligations.IllegalBytesOfTheDefaultMap
  decide

end Sys2Proof

/-! ### The cycle -/

namespace Sys2Proof.Machine

section
variable {s : State} {i : Instr}

/-! ### Decoding what is fetched -/

/-- The window is the cells from the pc on, three of them or as far as memory goes. -/
theorem window_eq_map (s : State) :
    s.window = (List.Ico s.pc (min (s.pc + 3) s.cfg.memSize)).map (Memory.peek s.mem) := by
  rw [← List.Ico.filter_lt]
  simp only [List.Ico, Nat.add_sub_cancel_left]
  rfl

/-- A byte of the window is what a read at its address answers. -/
theorem memRead_of_window {k : Nat} {b : Byte} (h : s.window[k]? = some b) : s.memRead (s.pc + k) = .ok b := by
  rw [window_eq_map] at h
  obtain ⟨hk, rfl⟩ := List.getElem?_eq_some_iff.1 h
  rw [List.length_map, List.Ico.length] at hk
  rw [memRead_of_lt (by omega), List.getElem_map]
  simp [List.Ico]

/-- An operand byte that stands in the window is fetched as it stands, and one the instruction lacks is 0. -/
theorem operandByte_of_window {op : Byte} {rest : List Byte} (h : s.window = op :: i.operandBytes ++ rest) (k : Nat) :
    s.operandByte i.width (k + 1) = .ok (i.operandBytes.getD k 0) := by
  rw [State.operandByte, width_eq_length_operandBytes]
  split
  · have hk : k < i.operandBytes.length := by omega
    refine memRead_of_window ?_
    rw [h, List.cons_append, List.getElem?_cons_succ, List.getElem?_append_left hk, List.getD_eq_getElem _ _ hk]
    exact List.getElem?_eq_getElem hk
  · rw [List.getD_eq_default _ _ (by omega)]
    rfl

/-- The cycle fetches the instruction that the window decodes to (30_encoding.md R70, R73). -/
theorem fetch_of_decode_window {rest : List Byte} (hp : s.cfg.operandPrefetch = true → s.pc + 2 < s.cfg.memSize)
    (h : decode s.cfg.opcodeMap s.window = .ok (i, rest)) : s.fetch = .ok i := by
  obtain ⟨hl, hw⟩ := of_decode_eq_ok h
  have hop : s.memRead s.pc = .ok (s.cfg.opcodeMap.byteOf i.mnemonic) := memRead_of_window (k := 0) (by rw [hw]; rfl)
  have h1 : s.operandByte i.mnemonic.width 1 = .ok (i.operandBytes.getD 0 0) := operandByte_of_window hw 0
  have h2 : s.operandByte i.mnemonic.width 2 = .ok (i.operandBytes.getD 1 0) := operandByte_of_window hw 1
  simp only [State.fetch, hop, prefetch_ok hp, hl, h1, h2, ok_bind, instr_operandBytes]
  rfl

end

/-- Settles O6: the fetch answers the decoded instruction, and the step of a Running core executes what it fetched. -/
theorem stepRunsTheDecodedInstruction : Obligations.StepRunsTheDecodedInstruction :=
  fun _ _ _ hrun hp h => step_of_fetch_ok hrun (fetch_of_decode_window hp h)

/-- A table word laid down at the pc is what a cycle can fetch, as far as memory goes. -/
theorem window_withFetchWord {s : State} (hwf : Memory.wf s.mem = true) (nbits w : Nat) :
    (s.withFetchWord nbits w).window = (tableBytes nbits w).take (s.cfg.memSize - s.pc) := by
  have hlen : (s.withFetchWord nbits w).window.length = min (s.cfg.memSize - s.pc) 3 := by
    rw [window_eq_map, List.length_map, List.Ico.length]
    simp only [State.withFetchWord]
    omega
  refine List.ext_getElem (by rw [hlen, List.length_take]; rfl) fun k _ hk => ?_
  simp only [window_eq_map, List.getElem_map, List.Ico, List.getElem_range', State.withFetchWord, peek_layDown hwf]
  rw [dif_pos (by simp at hk ⊢; omega)]
  simp

/-- What the decoder reads from a table word it decodes from the word's bytes. -/
theorem decode_of_decodeTableWord {nbits w : Nat} {i : Instr} (h : decodeTableWord nbits w = some i) :
    ∃ rest, decode .default (tableBytes nbits w) = .ok (i, rest) := by
  unfold decodeTableWord at h
  split at h
  · cases h
    exact ⟨_, ‹_›⟩
  · cases h

/-- Settles O57: the window of the reset state with the word laid down is the word's bytes. -/
theorem fetchWordRunsAsTheFirstInstruction : Obligations.FetchWordRunsAsTheFirstInstruction := by
  intro nbits w i h
  obtain ⟨rest, hd⟩ := decode_of_decodeTableWord h
  have hwin : (State.reset.withFetchWord nbits w).window = tableBytes nbits w := window_withFetchWord rfl nbits w
  exact stepRunsTheDecodedInstruction _ i rest rfl nofun (hwin ▸ hd)

section
variable {s : State}

/-! ### The faults of the fetch, in order -/

/-- No opcode byte: nothing else of the cycle happens. -/
theorem fetch_of_pc_ge (h : s.cfg.memSize ≤ s.pc) : s.fetch = .error ⟨.outOfBounds, s.pc⟩ := by
  rw [State.fetch, memRead_of_ge h, error_bind]

/-- A prefetch that raises ends the cycle before the lookup. -/
theorem fetch_of_prefetch_error {e : Trap} (h0 : s.pc < s.cfg.memSize) (h : s.prefetch = .error e) :
    s.fetch = .error e := by
  rw [State.fetch, memRead_of_lt h0, ok_bind, h, error_bind]

/-- The prefetch reads `pc+1` first (30_encoding.md R73). -/
theorem prefetch_of_first_ge (hp : s.cfg.operandPrefetch = true) (h : s.cfg.memSize ≤ s.pc + 1) :
    s.prefetch = .error ⟨.outOfBounds, s.pc + 1⟩ := by
  rw [State.prefetch, if_pos hp, memRead_of_ge h, error_bind]

/-- The prefetch reads `pc+2` after `pc+1` (30_encoding.md R73). -/
theorem prefetch_of_second_ge (hp : s.cfg.operandPrefetch = true) (h1 : s.pc + 1 < s.cfg.memSize)
    (h : s.cfg.memSize ≤ s.pc + 2) : s.prefetch = .error ⟨.outOfBounds, s.pc + 2⟩ := by
  rw [State.prefetch, if_pos hp, memRead_of_lt h1, ok_bind, memRead_of_ge h, error_bind]

/-- A byte the instruction has is read. -/
theorem operandByte_of_lt_width {width k : Nat} (h : k < width) : s.operandByte width k = s.memRead (s.pc + k) :=
  if_pos h

end

/-- Settles O7: each clause is the fetch's first read, prefetch, lookup or operand byte that fails. -/
theorem fetchFaultsInOrder : Obligations.FetchFaultsInOrder := by
  intro s hrun
  have raises {e : Trap} (h : s.fetch = .error e) : step s = .next (s.raise e) := step_of_fetch_error hrun h
  refine ⟨fun h0 => raises (fetch_of_pc_ge h0), fun h0 hp h1 => ?_, fun h1 hp h2 => ?_, fun h0 hp hl => ?_,
    fun mn h0 hp hl hw h1 => ?_, fun mn h1 hp hl hw h2 => ?_⟩
  · exact raises (fetch_of_prefetch_error h0 (prefetch_of_first_ge hp h1))
  · exact raises (fetch_of_prefetch_error (by omega) (prefetch_of_second_ge hp h1 h2))
  · exact raises (fetch_of_lookup_none h0 hp hl)
  · refine raises (e := ⟨.outOfBounds, s.pc + 1⟩) ?_
    rw [fetch_of_lookup_some h0 (by simp [hp]) hl, operandByte_of_lt_width hw, memRead_of_ge h1, error_bind]
  · refine raises (e := ⟨.outOfBounds, s.pc + 2⟩) ?_
    rw [fetch_of_lookup_some (by omega) (by simp [hp]) hl, hw, operandByte_of_lt_width (by decide), memRead_of_lt h1,
      ok_bind, operandByte_of_lt_width (by decide), memRead_of_ge h2, error_bind]

/-! ### Which cores step -/

/-- Settles O9: only a Running core's step answers, and there the fetch raises or the instruction answers. -/
theorem exactlyRunningCoresStep : Obligations.ExactlyRunningCoresStep :=
  fun _ => ⟨fun ⟨_, h⟩ => (step_next_cases h).1, step_of_running⟩

/-- Settles O10: an instruction completes or raises, and either is a next state. -/
theorem everyInstructionAnswersANextState : Obligations.EveryInstructionAnswersANextState := by
  intro i s
  obtain ⟨t, h, -⟩ | ⟨e, h, -⟩ := exec_cases i s
  · exact ⟨t, h⟩
  · exact ⟨s.raise e, h⟩

/-- Settles O11: neither stopped status takes a step, and each is its own result. -/
theorem stoppedCoreStaysAsItIs : Obligations.StoppedCoreStaysAsItIs := by
  refine fun s => ⟨fun h => ?_, fun r h => ?_⟩
  · exact ⟨step_of_halted h, runFor_of_stopped (by simp [h]), by simp only [State.runResult, h]⟩
  · exact ⟨step_of_faulted h, runFor_of_stopped (by simp [h]), by simp only [State.runResult, h]⟩

/-! ### The register check -/

/-- The byte the register check reports names no register. -/
theorem ge_of_firstInvalid {i : Instr} {r : Byte} (h : i.firstInvalid = some r) : 8 ≤ r.toNat :=
  (namesRegister_eq_false r).1 (by simpa using List.find?_some h)

/-- Only the register check raises `InvalidRegister`. -/
theorem Raises.firstInvalid {i : Instr} {s : State} {e : Trap} (h : Raises i s e) (hk : e.kind = .invalidRegister) :
    ∃ r, i.firstInvalid = some r := by
  cases h with
  | invalid _ _ r h => exact ⟨r, h⟩
  | _ => cases hk

/-- Settles O21: the first invalid byte is raised, whatever the instruction, and no other reason to raise is of that
kind. -/
theorem invalidRegisterOperandFaults : Obligations.InvalidRegisterOperandFaults := by
  refine fun i s => ⟨fun r h => ⟨ge_of_firstInvalid h, exec_invalid h, step_of_faulted rfl⟩, ?_⟩
  intro hnone hfault t f h hf hkind
  obtain hc | ⟨e, rfl, hr⟩ := exec_next_cases h
  · rw [hc.fault, hfault] at hf
    cases hf
  · cases hf
    obtain ⟨r, hsome⟩ := hr.firstInvalid hkind
    rw [hnone] at hsome
    cases hsome

end Sys2Proof.Machine

/-! ### HLT, NOP, INT and IRET -/

namespace Sys2Proof.Machine

/-- Settles O22: each of the four completes in every state. -/
theorem hltNopIntIretResults : Obligations.HltNopIntIretResults := fun s b =>
  ⟨exec_of_completes (.hlt s), exec_of_completes (.nop s), exec_of_completes (.int s b), exec_of_completes (.iret s)⟩

section
variable {s t : State}

/-- A run whose first step answers goes on from there. -/
theorem runFor_succ_of_next (h : step s = .next t) (n : Nat) : s.runFor (n + 1) = t.runFor n := by
  simp only [State.runFor, h]

/-- A Running core with a NOP at the pc moves past it (40_halt_nop.md R91). -/
theorem step_of_nop (hrun : s.status = .running) (hp : s.cfg.operandPrefetch = false) (h0 : s.pc < s.cfg.memSize)
    (hl : s.cfg.opcodeMap.lookup (Memory.peek s.mem s.pc) = some .nop) : step s = .next (s.advance 1) :=
  (step_of_fetch_ok hrun (fetch_of_width_one h0 hp hl rfl)).trans (exec_of_completes (.nop s))

/-- A Running core walks through `n` NOPs in `n` steps, whatever else memory holds. -/
theorem runFor_of_nops (n : Nat) (hrun : s.status = .running) (hp : s.cfg.operandPrefetch = false)
    (hn : s.pc + n ≤ s.cfg.memSize)
    (hl : ∀ k < n, s.cfg.opcodeMap.lookup (Memory.peek s.mem (s.pc + k)) = some .nop) :
    s.runFor n = s.advance n := by
  induction n generalizing s with
  | zero => rfl
  | succ n ih =>
    have hstep : step s = .next (s.advance 1) := step_of_nop hrun hp (by omega) (hl 0 n.succ_pos)
    have hnext : ∀ k < n, s.cfg.opcodeMap.lookup (Memory.peek s.mem (s.pc + 1 + k)) = some .nop := by
      intro k hk
      rw [Nat.add_assoc, Nat.add_comm 1 k]
      exact hl (k + 1) (Nat.succ_lt_succ hk)
    calc s.runFor (n + 1) = (s.advance 1).runFor n := runFor_succ_of_next hstep n
      _ = (s.advance 1).advance n := ih (s := s.advance 1) hrun hp (by simp only [advance_pc, advance_cfg]; omega) hnext
      _ = s.advance (n + 1) := by simp only [State.advance, Nat.add_assoc, Nat.add_comm 1 n]

/-- A Running core with the pc past the end of memory takes the fault of its opcode fetch (60_exceptions.md R207). -/
theorem step_of_pc_ge (hrun : s.status = .running) (h : s.cfg.memSize ≤ s.pc) :
    step s = .next (s.raise ⟨.outOfBounds, s.pc⟩) := step_of_fetch_error hrun (fetch_of_pc_ge h)

end

/-- Settles O56: every cell from the pc to the end of memory holds a NOP, and the step after the last one fetches past
the end. -/
theorem zeroedMemoryRunsOffTheEnd : Obligations.ZeroedMemoryRunsOffTheEnd := by
  intro s hrun hp hmem hpc hl
  have hend : s.pc + (s.cfg.memSize - s.pc) = s.cfg.memSize := Nat.add_sub_of_le hpc
  have hzero (a : Nat) : Memory.peek s.mem a = 0 := by rw [hmem]; rfl
  have hwalk : s.runFor (s.cfg.memSize - s.pc) = { s with pc := s.cfg.memSize } := by
    rw [runFor_of_nops _ hrun hp hend.le fun k _ => by rw [hzero]; exact hl, State.advance, hend]
  refine ⟨hwalk, ?_⟩
  rw [runFor_add, hwalk]
  exact runFor_succ_of_next (step_of_pc_ge (s := { s with pc := s.cfg.memSize }) hrun le_rfl) 0

end Sys2Proof.Machine

/-! ### LDI, LD and ST -/

namespace Sys2Proof.Machine

/-- Settles O23: LDI completes in every state. -/
theorem ldiWritesTheImmediate : Obligations.LdiWritesTheImmediate :=
  fun s d imm8 => exec_of_completes (.ldi s d imm8)

/-- Settles O24: LD completes with its address inside memory and raises outside. -/
theorem ldReadsTheAddressedCell : Obligations.LdReadsTheAddressedCell := fun s a b =>
  ⟨fun hin => exec_of_completes (.ld s a b hin), fun hout => exec_of_raises (.ld s a b hout)⟩

/-- Settles O25: ST completes with its address inside memory, where the new memory is one `Memory.poke`, and raises
outside. -/
theorem stWritesTheAddressedCell : Obligations.StWritesTheAddressedCell := by
  refine fun s a b hwf => ⟨fun hin => ?_, fun hout => exec_of_raises (.st s a b hout)⟩
  exact ⟨Memory.poke s.mem (s.address a) (s.reg b), exec_of_completes (.st s a b hin),
    peek_poke hwf (s.address a) (s.reg b)⟩

end Sys2Proof.Machine

/-! ### PUSH and POP -/

namespace Sys2Proof.Machine

section
variable {s u : State} {a : Reg}

/-- The address a push writes to is the moved SP (20_memory.md R50). -/
theorem pushAddress_eq_toNat (s : State) : s.pushAddress = (s.sp - 1).toNat := by
  rw [← sp_decSp s, State.pushAddress]

/-- The registers are equal as a whole when each one reads the same. -/
theorem regs_ext (h : ∀ q : Reg, u.reg q = s.reg q) : u.regs = s.regs :=
  Vector.ext fun k hk => h ⟨k, hk⟩

/-- SP after a register is written: the written byte if that register is SP itself. -/
theorem sp_setReg (s : State) (r : Reg) (v : Byte) : (s.setReg r v).sp = if r = spReg then v else s.sp := by
  simp only [State.sp, reg_setReg, eq_comm (a := spReg)]

/-- What a PUSH inside memory leaves behind, as a later POP sees it (42_stack.md R110). -/
theorem exec_push_leaves (hwf : Memory.wf s.mem = true) (hin : s.pushAddress < s.cfg.memSize) (a : Reg) :
    ∃ t, exec (.push a.byte) s = .next t ∧ t.cfg = s.cfg ∧ t.sp = s.sp - 1 ∧
      Memory.peek t.mem (s.sp - 1).toNat = s.decSp.reg a ∧ ∀ q, q ≠ spReg → t.reg q = s.reg q := by
  refine ⟨_, exec_of_completes (.push s a hin), rfl, sp_decSp s, ?_, fun q hq => reg_setReg_ne s hq _⟩
  rw [advance_mem, setCell_mem, decSp_mem, pushAddress_eq_toNat, peek_poke_self s.mem hwf]

/-- A POP with SP where a PUSH of the same register from `s` left it, and the pushed byte there, gives back all registers
of `s`, whatever the popped register held in the meantime (42_stack.md R111). -/
theorem exec_pop_restores (hin : (s.sp - 1).toNat < u.cfg.memSize) (hsp : u.sp = s.sp - 1)
    (hcell : Memory.peek u.mem (s.sp - 1).toNat = s.decSp.reg a)
    (hkept : ∀ q : Reg, q ≠ spReg → q ≠ a → u.reg q = s.reg q) :
    ∃ v, exec (.pop a.byte) u = .next v ∧ v.regs = s.regs := by
  rw [← hsp] at hin hcell
  refine ⟨_, exec_of_completes (.pop u a hin), regs_ext fun q => ?_⟩
  have hmoved : (u.setReg a (s.decSp.reg a)).sp = s.sp - 1 := by
    rw [sp_setReg, hsp]
    split
    · next h => rw [h]; exact sp_decSp s
    · rfl
  rw [hcell, reg_advance, reg_incSp, hmoved, BitVec.sub_add_cancel]
  by_cases hq : q = spReg
  · rw [if_pos hq, hq, State.sp]
  by_cases hqa : q = a
  · rw [if_neg hq, hqa, reg_setReg_self, ← hqa, reg_decSp, if_neg hq]
  · rw [if_neg hq, reg_setReg_ne u hqa, hkept q hq hqa]

end

/-- Settles O53: POP finds the pushed byte at the moved SP, and clearing a register other than SP moves neither. -/
theorem pushPopRoundTrip : Obligations.PushPopRoundTrip := by
  intro s a hwf hsize
  have hin : s.pushAddress < s.cfg.memSize := by rwa [pushAddress_eq]
  obtain ⟨t, hpush, hcfg, hsp, hcell, hkept⟩ := exec_push_leaves hwf hin a
  rw [pushAddress_eq_toNat, ← hcfg] at hin
  refine ⟨fun ha => ?_, fun _ => ?_⟩
  · have hclear := exec_of_completes (.ldi t a 0)
    have hsp' : ((t.setReg a 0).advance 3).sp = s.sp - 1 := ((sp_setReg t a 0).trans (if_neg ha)).trans hsp
    obtain ⟨v, hpop, hregs⟩ := exec_pop_restores (u := (t.setReg a 0).advance 3) hin hsp' hcell
      fun q hq hqa => (reg_setReg_ne t hqa 0).trans (hkept q hq)
    exact ⟨t, _, v, hpush, hclear, hpop, hregs⟩
  · obtain ⟨v, hpop, hregs⟩ := exec_pop_restores hin hsp hcell fun q hq _ => hkept q hq
    exact ⟨t, v, hpush, hpop, hregs⟩

/-- Settles O26: PUSH completes with the moved SP inside memory, where the new memory is one `Memory.poke`, and raises
outside. -/
theorem pushStoresBelowSp : Obligations.PushStoresBelowSp := by
  intro s a hwf
  refine ⟨s.sp - 1, by rw [← pushAddress_eq_toNat, pushAddress_eq], ?_⟩
  rw [← pushAddress_eq_toNat]
  refine ⟨fun hin => ?_, fun hout => exec_of_raises (.push s a hout)⟩
  refine ⟨Memory.poke s.mem s.pushAddress (s.decSp.reg a), exec_of_completes (.push s a hin), fun x => ?_⟩
  rw [peek_poke hwf, reg_decSp, spReg]

/-- Settles O27: POP completes with SP inside memory and raises outside; the SP it moves up is read after the popped byte
is written. -/
theorem popLoadsFromSp : Obligations.PopLoadsFromSp := by
  refine fun s d => ⟨fun hin => ?_, fun hout => exec_of_raises (.pop s d hout)⟩
  refine ⟨(s.setReg d (Memory.peek s.mem s.sp.toNat)).sp + 1, ?_, exec_of_completes (.pop s d hin)⟩
  rw [BitVec.toNat_add, sp_setReg]
  rfl

end Sys2Proof.Machine

/-! ### PRN and PRA -/

namespace Sys2Proof.Machine

/-- Settles O28: PRN and PRA complete in every state, each with its own event (43_output.md R121, R122). -/
theorem prnPraAppendOneEvent : Obligations.PrnPraAppendOneEvent := fun s a =>
  ⟨exec_of_completes (.prn s a), exec_of_completes (.pra s a)⟩

end Sys2Proof.Machine

/-! ### The ALU -/

namespace Sys2Proof.Machine

/-! The model computes each operation on natural numbers and narrows the result (44_alu.md R130): it is the library's
operation on bytes. -/

section
variable {n : Nat} {v : Byte} (a : Byte) {b : Byte}

/-- What a natural number narrows to is fixed by its remainder modulo 256 (10_state.md R23). -/
theorem narrow_eq_iff : narrow n = v ↔ n % 256 = v.toNat := by
  rw [← BitVec.toNat_inj, narrow, BitVec.toNat_ofNat]

@[simp] theorem narrow_toNat (v : Byte) : narrow v.toNat = v := narrow_eq_iff.2 (Nat.mod_eq_of_lt v.isLt)

theorem aluAdd_eq (b : Byte) : aluAdd a b = a + b := narrow_eq_iff.2 (BitVec.toNat_add a b).symm

theorem aluMul_eq (b : Byte) : aluMul a b = a * b := narrow_eq_iff.2 (BitVec.toNat_mul a b).symm

theorem aluInc_eq : aluInc a = a + 1 := aluAdd_eq a 1

theorem aluSub_eq (b : Byte) : aluSub a b = a - b := by
  apply BitVec.eq_of_toNat_eq
  rw [aluSub, BitVec.toNat_ofInt, BitVec.toNat_sub]
  omega

theorem aluDec_eq : aluDec a = a - 1 := aluSub_eq a 1

theorem aluNot_eq : aluNot a = ~~~a := by
  have hnot : 255 - a.toNat = (~~~a).toNat := (BitVec.toNat_not (x := a)).symm
  rw [aluNot, hnot, narrow_toNat]

/-- The library's shift, too, gives 0 from a count of 8 on (44_alu.md R139). -/
theorem aluShl_eq (b : Byte) : aluShl a b = a <<< b.toNat := by
  unfold aluShl
  split
  · next h => exact (BitVec.shiftLeft_eq_zero h).symm
  · rw [narrow_eq_iff, BitVec.toNat_shiftLeft, Nat.shiftLeft_eq]

/-- The library's shift, too, gives 0 from a count of 8 on (44_alu.md R140). -/
theorem aluShr_eq (b : Byte) : aluShr a b = a >>> b.toNat := by
  unfold aluShr
  split
  · next h => exact (BitVec.ushiftRight_eq_zero h).symm
  · rw [← Nat.shiftRight_eq_div_pow, ← BitVec.toNat_ushiftRight, narrow_toNat]

variable (hb : b.toNat ≠ 0) (pc : Nat)
include hb

theorem aluDiv_of_ne_zero : aluDiv pc a b = .ok (a / b) := by
  rw [aluDiv, if_neg hb, ← BitVec.toNat_udiv, narrow_toNat]

/-- The model takes the divisor times the quotient away; what is left is the remainder (44_alu.md R135). -/
theorem aluMod_of_ne_zero : aluMod pc a b = .ok (a % b) := by
  rw [aluMod, if_neg hb, ← Nat.mod_eq_sub, ← BitVec.toNat_umod, narrow_toNat]

end

/-- Settles O29: the three are the ring operations on bytes, and the difference plus `x[rb]` is `x[ra]` again. -/
theorem addSubMulWrapModulo256 : Obligations.AddSubMulWrapModulo256 := by
  refine fun s a b => ⟨_, _, _, ?sum, ?diff, ?prod,
    exec_of_completes (.add s a b), exec_of_completes (.sub s a b), exec_of_completes (.mul s a b)⟩
  case sum => rw [aluAdd_eq, BitVec.toNat_add]
  case diff =>
    have hback : aluSub (s.reg a) (s.reg b) + s.reg b = s.reg a := by rw [aluSub_eq, BitVec.sub_add_cancel]
    rw [← BitVec.toNat_add, hback]
  case prod => rw [aluMul_eq, BitVec.toNat_mul]

/-- Settles O30: with a divisor that is not 0 both complete, with the quotient and the remainder of Euclidean division. -/
theorem divModGiveQuotientAndRemainder : Obligations.DivModGiveQuotientAndRemainder := by
  intro s a b hb
  have hb' : (s.reg b).toNat ≠ 0 := BitVec.toNat_ne_iff_ne.2 hb
  exact ⟨s.reg a / s.reg b, s.reg a % s.reg b, Nat.div_add_mod _ _, Nat.mod_lt _ (Nat.pos_of_ne_zero hb'),
    exec_of_completes (.div s a b _ (aluDiv_of_ne_zero _ hb' s.pc)),
    exec_of_completes (.mod s a b _ (aluMod_of_ne_zero _ hb' s.pc))⟩

/-- Settles O32: the library's bitwise operations, bit by bit; NOT is `255 - x[ra]` in the model, which is the
complement. -/
theorem logicWorksBitByBit : Obligations.LogicWorksBitByBit := by
  refine fun s a b => ⟨_, _, _, _, fun k hk => ⟨BitVec.getLsbD_and, BitVec.getLsbD_or, BitVec.getLsbD_xor, ?_⟩,
    exec_of_completes (.and s a b), exec_of_completes (.or s a b), exec_of_completes (.xor s a b),
    exec_of_completes (.not s a)⟩
  rw [aluNot_eq, BitVec.getLsbD_not, decide_eq_true hk, Bool.true_and]

/-- Settles O33: the bits of the library's shifts; to the right, a bit from 8 on is 0. -/
theorem shiftsUseTheWholeCount : Obligations.ShiftsUseTheWholeCount := by
  refine fun s a b => ⟨_, _, fun k hk => ⟨?left, ?right⟩,
    exec_of_completes (.shl s a b), exec_of_completes (.shr s a b)⟩
  case left =>
    rw [aluShl_eq, BitVec.getLsbD_shiftLeft, decide_eq_true hk, Bool.true_and, ← decide_not]
    simp only [Nat.not_lt]
  case right =>
    rw [aluShr_eq, BitVec.getLsbD_ushiftRight, Nat.add_comm]
    rcases Nat.lt_or_ge (k + (s.reg b).toNat) 8 with h | h
    · rw [decide_eq_true h, Bool.true_and]
    · rw [BitVec.getLsbD_of_ge _ _ h, Bool.and_false]

/-- Settles O34: one more and one less on bytes, and modulo 256 one less is 255 more. -/
theorem incDecWrapModulo256 : Obligations.IncDecWrapModulo256 := by
  refine fun s a => ⟨_, _, ?up, ?down, exec_of_completes (.inc s a), exec_of_completes (.dec s a)⟩
  case up =>
    rw [aluInc_eq, BitVec.toNat_add]
    rfl
  case down =>
    rw [aluDec_eq, BitVec.toNat_sub, Nat.add_comm]
    rfl

/-- Settles O35: one case for each outcome of the comparison; the three values of FL differ. -/
theorem cmpSetsExactlyOneFlag : Obligations.CmpSetsExactlyOneFlag := by
  refine fun s a b => ⟨_, exec_of_completes (.cmp s a b), ?_⟩
  obtain ⟨h, e⟩ | ⟨h, e⟩ | ⟨h, e⟩ := compareFlags_cases (s.reg a) (s.reg b)
  · simp [e, h]
  · simp [e, h, h.ne', h.not_gt]
  · simp [e, h, h.ne, h.not_gt]

end Sys2Proof.Machine

/-! ### CALL and RET -/

namespace Sys2Proof.Machine

/-- A return address that fits a byte is stored as it is (45_control_transfer.md R162). -/
theorem toNat_narrow_of_le {n : Nat} (h : n ≤ 255) : (narrow n).toNat = n :=
  (narrow_eq_iff.1 rfl).symm.trans (Nat.mod_eq_of_lt (Nat.lt_succ_of_le h))

/-- What a CALL that completes leaves behind, as a later RET sees it (45_control_transfer.md R162). -/
theorem exec_call_leaves {s : State} (hwf : Memory.wf s.mem = true) (hret : s.pc + 2 ≤ 255)
    (hin : s.pushAddress < s.cfg.memSize) (a : Reg) :
    ∃ t, exec (.call a.byte) s = .next t ∧ t.cfg = s.cfg ∧ t.sp = s.sp - 1 ∧
      Memory.peek t.mem (s.sp - 1).toNat = narrow (s.pc + 2) := by
  refine ⟨_, exec_of_completes (.call s a hret hin), rfl, sp_decSp s, ?_⟩
  rw [jump_mem, setCell_mem, decSp_mem, pushAddress_eq_toNat, peek_poke_self s.mem hwf]

/-- Settles O54: RET finds at the moved SP the address CALL stored there, and moves SP back up. -/
theorem callRetRoundTrip : Obligations.CallRetRoundTrip := by
  intro s a hwf hret hsize
  have hin : s.pushAddress < s.cfg.memSize := by rwa [pushAddress_eq]
  obtain ⟨t, hcall, hcfg, hsp, hcell⟩ := exec_call_leaves hwf hret hin a
  refine ⟨t, hcall, fun u hucfg husp hucell => ?_⟩
  have huin : u.sp.toNat < u.cfg.memSize := by rwa [husp, hsp, hucfg, hcfg, ← pushAddress_eq_toNat]
  refine ⟨_, exec_of_completes (.ret u huin), ?pc, ?sp⟩
  case pc => rw [jump_pc, hucell, hsp, hcell, toNat_narrow_of_le hret]
  case sp =>
    calc u.incSp.sp = u.sp + 1 := sp_incSp u
      _ = s.sp := by rw [husp, hsp, BitVec.sub_add_cancel]

/-- Settles O36: CALL completes, its new memory is one `Memory.poke`, and the target is read with SP already moved. -/
theorem callPushesTheReturnAddress : Obligations.CallPushesTheReturnAddress := by
  intro s a hwf hret
  refine ⟨s.sp - 1, narrow (s.pc + 2), by rw [← pushAddress_eq_toNat, pushAddress_eq], toNat_narrow_of_le hret, ?_⟩
  rw [← pushAddress_eq_toNat]
  intro hin
  have htarget : s.decSp.reg a = if a = 7 then s.sp - 1 else s.reg a := reg_decSp s a
  rw [← htarget]
  exact ⟨_, exec_of_completes (.call s a hret hin), peek_poke hwf s.pushAddress (narrow (s.pc + 2))⟩

/-- Settles O37: CALL raises for its return address, and with one that fits, for the moved SP. -/
theorem callFaultsBeforeItWrites : Obligations.CallFaultsBeforeItWrites := by
  intro s a
  rw [← pushAddress_eq]
  exact ⟨fun hret => exec_of_raises (.callReturn s a hret), fun hret hout => exec_of_raises (.call s a hret hout)⟩

/-- Settles O38: RET completes with SP inside memory and raises outside. -/
theorem retPopsThePc : Obligations.RetPopsThePc := fun s =>
  ⟨fun hin => ⟨s.sp + 1, BitVec.toNat_add s.sp 1, exec_of_completes (.ret s hin)⟩,
    fun hout => exec_of_raises (.ret s hout)⟩

end Sys2Proof.Machine

/-! ### Jumps -/

namespace Sys2Proof.Machine

/-- Settles O39: JMP completes in every state. -/
theorem jmpSetsThePc : Obligations.JmpSetsThePc := fun s a => exec_of_completes (.jmp s a)

section
variable {i : Instr} {s : State} {a : Reg} {cond : Byte → Bool}
  (hi : Completes i s (if cond s.fl then s.jump (s.reg a) else s.advance 2))
include hi

/-- A conditional jump whose condition holds goes to the register (45_control_transfer.md R161). -/
theorem exec_branch_taken (h : cond s.fl = true) : exec i s = .next { s with pc := (s.reg a).toNat } := by
  rw [exec_of_completes hi, if_pos h, State.jump]

/-- A conditional jump whose condition does not hold goes on behind itself (45_control_transfer.md R173). -/
theorem exec_branch_not_taken (h : cond s.fl = false) : exec i s = .next { s with pc := s.pc + 2 } := by
  rw [exec_of_completes hi, if_neg (ne_true_of_eq_false h), State.advance]

/-- A conditional jump is decided by whatever its condition on FL decides. -/
theorem exec_branch {p : Prop} [Decidable p] (h : cond s.fl = decide p) :
    exec i s = .next { s with pc := if p then (s.reg a).toNat else s.pc + 2 } := by
  by_cases hp : p
  · rw [if_pos hp, exec_branch_taken hi (h.trans (decide_eq_true hp))]
  · rw [if_neg hp, exec_branch_not_taken hi (h.trans (decide_eq_false hp))]

end

/-- Settles O40: each condition is the one of R161 on FL's bits; JNE's is the negation of JEQ's. -/
theorem conditionalJumpsFollowFlags : Obligations.ConditionalJumpsFollowFlags := by
  intro s a
  have hjne := exec_branch (.jne s a) (p := ¬ s.fl.getLsbD 0) (by simp [condNe, flagE])
  rw [ite_not] at hjne
  exact ⟨exec_branch (.jeq s a) (by simp [condEq, flagE]), hjne,
    exec_branch (.jgt s a) (by simp [condGt, flagG]), exec_branch (.jlt s a) (by simp [condLt, flagL]),
    exec_branch (.jle s a) (by simp [condLe, flagL, flagE]), exec_branch (.jge s a) (by simp [condGe, flagG, flagE])⟩

/-- Settles O41: each condition on the FL that CMP writes is the comparison the jump names, and on FL 0 only JNE's
holds. -/
theorem compareThenJumpDecides : Obligations.CompareThenJumpDecides := by
  refine fun s a b c => ⟨⟨_, exec_of_completes (.cmp s a b), ?after⟩, fun hfl => ⟨?ne, ?others⟩⟩
  case after =>
    rintro u v rfl rfl
    exact ⟨exec_branch (.jeq _ c) (condEq_compareFlags _ _), exec_branch (.jne _ c) (condNe_compareFlags _ _),
      exec_branch (.jgt _ c) (condGt_compareFlags _ _), exec_branch (.jlt _ c) (condLt_compareFlags _ _),
      exec_branch (.jle _ c) (condLe_compareFlags _ _), exec_branch (.jge _ c) (condGe_compareFlags _ _)⟩
  case ne => exact exec_branch_taken (.jne s c) (hfl ▸ condNe_zero)
  case others =>
    simp only [List.forall_mem_cons]
    exact ⟨exec_branch_not_taken (.jeq s c) (hfl ▸ condEq_zero), exec_branch_not_taken (.jgt s c) (hfl ▸ condGt_zero),
      exec_branch_not_taken (.jlt s c) (hfl ▸ condLt_zero), exec_branch_not_taken (.jle s c) (hfl ▸ condLe_zero),
      exec_branch_not_taken (.jge s c) (hfl ▸ condGe_zero), nofun⟩

end Sys2Proof.Machine

/-! ### Faults and the end of a run -/

namespace Sys2Proof.Machine

section
variable {s t : State} {r : FaultRecord}

/-- A core that holds a fault takes no step, stays as it is, and its run returns that fault (60_exceptions.md R205). -/
theorem final_of_fault (h : t.fault = some r) :
    step t = .fault (.faulted r) ∧ (∀ n, t.runFor n = t) ∧ t.runResult = some (.fault r) :=
  (stoppedCoreStaysAsItIs t).2 r ((status_eq_faulted t r).2 h)

/-- A step that leaves a fault took it: nothing that completes sets the record (30_encoding.md R75). -/
theorem eq_raise_of_step_of_fault (h : step s = .next t) (hf : t.fault = some r) : ∃ e, t = s.raise e := by
  obtain ⟨hrun, ⟨e, -, ht⟩ | ⟨i, -, hc | ⟨e, ht, -⟩⟩⟩ := step_next_cases h
  · exact ⟨e, ht⟩
  · rw [hc.fault, ((status_eq_running s).1 hrun).1] at hf
    cases hf
  · exact ⟨e, ht⟩

end

/-- Settles O31: a zero divisor is a reason to raise for both, and the state with the fault has no step. -/
theorem divisionByZeroAlwaysFaults : Obligations.DivisionByZeroAlwaysFaults := by
  intro s a b hb
  have hzero : (s.reg b).toNat = 0 := by rw [hb]; rfl
  exact ⟨_, rfl, exec_of_raises (.div s a b hzero), exec_of_raises (.mod s a b hzero), (final_of_fault rfl).1⟩

/-- Settles O8: the lookup fails before any operand byte is read, and the state with the fault is final. -/
theorem unlistedOpcodeStopsTheRun : Obligations.UnlistedOpcodeStopsTheRun := by
  intro s op hrun hp hop hl
  obtain ⟨h0, hread⟩ | ⟨-, hread⟩ := memRead_cases s s.pc
  · cases hread.symm.trans hop
    exact ⟨_, _, step_of_fetch_error hrun (fetch_of_lookup_none h0 hp hl), rfl, rfl, rfl, rfl, final_of_fault rfl⟩
  · cases hread.symm.trans hop

/-- Settles O48: the faulting step is one `raise`, and the state it leaves is final. -/
theorem faultsArePreciseAndFinal : Obligations.FaultsArePreciseAndFinal := by
  intro s t r hstep hf
  obtain ⟨hstop, hstays, -⟩ := final_of_fault hf
  obtain ⟨e, rfl⟩ := eq_raise_of_step_of_fault hstep hf
  cases hf
  exact ⟨rfl, rfl, hstop, hstays⟩

/-- Settles O12: what is left of the longer run starts in a stopped core. -/
theorem endedRunHasOneResult : Obligations.EndedRunHasOneResult := by
  intro s n m hstop hnm
  obtain ⟨k, rfl⟩ := Nat.exists_eq_add_of_le hnm
  rw [runFor_add, runFor_of_stopped hstop]

/-- A run that ends has one end, whatever the number of steps that shows it. -/
theorem runFor_eq_of_stopped {s : State} {n m : Nat} (hn : (s.runFor n).status ≠ .running)
    (hm : (s.runFor m).status ≠ .running) : s.runFor n = s.runFor m :=
  (Nat.le_total n m).elim (fun h => (endedRunHasOneResult s n m hn h).symm) (endedRunHasOneResult s m n hm)

/-- Settles O13: if some number of steps ends the run, its status there says how, and the run has no other end. -/
theorem runEndsWellOrBadlyOrHangs : Obligations.RunEndsWellOrBadlyOrHangs := by
  refine fun s => ⟨?one, ?notBoth, ?notHangs⟩
  case one =>
    by_cases hangs : s.Hangs
    · exact .inr (.inr hangs)
    · obtain ⟨n, hn⟩ := not_forall.1 hangs
      cases hs : (s.runFor n).status with
      | running => exact absurd hs hn
      | halted => exact .inl ⟨n, hs⟩
      | faulted r => exact .inr (.inl ⟨n, r, hs⟩)
  case notBoth =>
    rintro ⟨⟨n, hn⟩, m, r, hm⟩
    have hsame : s.runFor n = s.runFor m := runFor_eq_of_stopped (by simp [hn]) (by simp [hm])
    rw [hsame, hm] at hn
    cases hn
  case notHangs =>
    rintro ⟨hangs, ⟨n, hn⟩ | ⟨n, r, hn⟩⟩
    · cases (hangs n).symm.trans hn
    · cases (hangs n).symm.trans hn

end Sys2Proof.Machine

/-! ### Load -/

namespace Sys2Proof.Machine

section
variable {s t : State} {image : List Byte}

/-- An image longer than memory is refused (70_reset_and_hazards.md R241). -/
theorem load_of_gt (h : s.cfg.memSize < image.length) : s.load image = .error .imageTooLarge := if_pos h

/-- An image that fits is one block of writes from address 0 (70_reset_and_hazards.md R241). -/
theorem load_of_le (h : image.length ≤ s.cfg.memSize) :
    s.load image = .ok { s with mem := Memory.pokeAll s.mem 0 image } := if_neg (Nat.not_lt.2 h)

/-- `load` answers only for an image that fits, and then with the block of writes. -/
theorem of_load_eq_ok (h : s.load image = .ok t) :
    image.length ≤ s.cfg.memSize ∧ t = { s with mem := Memory.pokeAll s.mem 0 image } := by
  rcases Nat.lt_or_ge s.cfg.memSize image.length with hlong | hfits
  · cases (load_of_gt hlong).symm.trans h
  · cases (load_of_le hfits).symm.trans h
    exact ⟨hfits, rfl⟩

/-- Another canonical memory within the address space keeps the invariant. -/
theorem State.Inv.with_mem {m : Memory} (h : s.Inv) (hwf : Memory.wf m = true) (hm : ∀ c ∈ m, c.1 < s.cfg.memSize) :
    ({ s with mem := m } : State).Inv :=
  { h with mem_wf := hwf, mem_bound := hm }

end

/-- Settles O16: an image that fits is one block of writes at 0, and a cell reads as its byte there or as before. -/
theorem loadCopiesTheImage : Obligations.LoadCopiesTheImage := by
  refine fun s image => ⟨load_of_gt, fun hfits hwf => ⟨Memory.pokeAll s.mem 0 image, load_of_le hfits, fun a => ?_⟩⟩
  simp only [peek_pokeAll hwf, Nat.zero_le, true_and, Nat.sub_zero]

/-- Settles O18: the loaded cells lie below the image's length, which is at most the size of memory. -/
theorem loadKeepsInvariant : Obligations.LoadKeepsInvariant := by
  intro s t image hinv h
  obtain ⟨hfits, rfl⟩ := of_load_eq_ok h
  refine hinv.with_mem (pokeAll_wf hinv.mem_wf 0 image) fun c hc => ?_
  obtain hold | ⟨-, hnew⟩ := pokeAll_mem hc
  · exact hinv.mem_bound c hold
  · rw [Nat.zero_add] at hnew
    exact hnew.trans_le hfits

end Sys2Proof.Machine

/-! ### The stack at its reset value -/

namespace Sys2Proof.Machine

/-- Settles O52: PUSH and CALL reach for 0xF3, the moved SP, and POP and RET for 0xF4, SP itself. -/
theorem firstPushNeedsTheResetStack : Obligations.FirstPushNeedsTheResetStack := by
  refine ⟨fun _ => rfl, fun s a hsp => ?_⟩
  have hpush : s.pushAddress = 0xF3 := by rw [pushAddress_eq, hsp]; rfl
  have htop : s.sp.toNat = 0xF4 := by rw [hsp]; rfl
  refine ⟨fun hsize => ?tooSmall, fun hsize => ?largeEnough, fun hsize => ?nothingAtSp⟩
  case tooSmall =>
    rw [← hpush] at hsize ⊢
    exact ⟨exec_of_raises (.push s a hsize), fun hret => exec_of_raises (.call s a hret hsize)⟩
  case largeEnough =>
    have hin : s.pushAddress < s.cfg.memSize := hpush ▸ hsize
    have hmoved : s.decSp.sp = 0xF3 := by rw [sp_decSp, hsp]; rfl
    exact ⟨⟨_, exec_of_completes (.push s a hin), rfl, hmoved⟩,
      fun hret => ⟨_, exec_of_completes (.call s a hret hin), rfl, hmoved⟩⟩
  case nothingAtSp =>
    rw [← htop] at hsize ⊢
    exact ⟨exec_of_raises (.pop s a hsize), exec_of_raises (.ret s hsize)⟩

end Sys2Proof.Machine
